-- ==== Sys2Proof/Word.lean ====
section
/-! DEFINITION. The widths of the words of CORE (00_scope R5, 10_state R20, 30_encoding R80). -/

namespace Sys2Proof

/-- A chunk: one byte of a VarInt encoding (R81), and the unit of access of both streams (R63). -/
abbrev Byte := BitVec 8

/-- The 7 data bits of a chunk (R81). -/
abbrev Data := BitVec 7

/-- An unsigned 64-bit pattern: ENC's remaining value, DEC's accumulator, `u64(v)` (R6, R21, R22). -/
abbrev Pattern := BitVec 64

/-- A chunk position counter, 3 bits wide (R23, R24). -/
abbrev Pos := BitVec 3

/-- A command word (R95). -/
abbrev CmdWord := BitVec 65

/-- A response word (R96). -/
abbrev RspWord := BitVec 68

end Sys2Proof
end

