-- ==== Sys2Proof/Config.lean ====
section
/-! DEFINITION. The fixed parameters of CORE (00_scope R5), the forms an answer of the environment takes, and
the free values: the draws of the environment that the spec leaves open. -/

namespace Sys2Proof

/-- The sink's answer to one write (20_memory R52, R53). `fail left` carries what the open parameter
`SINK_FAIL_EFFECT` says of this write (R54, U3): the bytes the failed write leaves in the sink. The reference
environment has `fail []`. DESIGN CHOICE, log 3, safe: each answer brings its own effect. -/
inductive SinkAnswer where
  | ok
  | fail (left : List Byte)
  deriving DecidableEq, Repr, Inhabited

/-- The source's answer to one read (20_memory R56). `fail moved` carries what the open parameter
`SRC_FAIL_EFFECT` says of this read (R57, U4): by how many bytes the failed read moves the source's position. The
reference environment has `fail 0`. DESIGN CHOICE, log 4, safe: each answer brings its own effect. -/
inductive SourceAnswer where
  | byte (b : Byte)
  | fail (moved : Nat)
  deriving DecidableEq, Repr, Inhabited

/-- The agents that take turns (00_scope R9); SNK and SRC answer inside a step of ENC or DEC. -/
inductive Agent where
  | host
  | enc
  | dec
  deriving DecidableEq, Repr, Inhabited

/-- `MAX_SIZE`: the maximum encoded size in bytes, hard-wired (R5, R28). -/
def Config.maxSize : Nat := 5

/-- `MIN_SIZE` (R5). -/
def Config.minSize : Nat := 1

/-- `DATA_BITS`: data bits per chunk (R5). -/
def Config.dataBits : Nat := 7

/-- `VALUE_WIDTH`: width of the signed value, of `ENC.rem` and of `DEC.acc` (R5). -/
def Config.valueWidth : Nat := 64

/-- `PAYLOAD_BITS`: the value bits that `MAX_SIZE` chunks can carry (R5). -/
def Config.payloadBits : Nat := Config.maxSize * Config.dataBits

/-- The last allowed chunk position, `MAX_SIZE - 1` (R5, R28). -/
def Config.lastPos : Pos := BitVec.ofNat 3 (Config.maxSize - 1)

/-- FREE VALUE: the sink's answer to a write that no scripted answer covers (R52, D11, U10). Log 3. -/
opaque Config.freeSinkAnswer : Nat → SinkAnswer

/-- FREE VALUE: the source's answer to a read that no scripted answer covers (R56, D12, U10). Log 4. -/
opaque Config.freeSourceAnswer : Nat → SourceAnswer

/-- FREE VALUE: whose turn is next where the schedule says nothing (R68, D17). Log 2. -/
opaque Config.freeAgent : Nat → Agent

end Sys2Proof
end

