-- ==== Sys2Proof/Syntax.lean ====
section
/-! DEFINITION. The encoded words of CORE as data: the four rows of the opcode table (30_encoding R97), the error
kinds (60_exceptions R201) and the responses (30_encoding R96, 00_scope R12). -/

namespace Sys2Proof

/-- The rows of spec/opcode_table.json: the two host commands and the two chunk forms (00_scope R2). -/
inductive Instr where
  /-- `ENCODE value`: the signed 64-bit value `v` is a number (R121); its range is checked by `Instr.wf` (R130). -/
  | encode (value : Int)
  /-- `DECODE`: bits 63:0 of its word are ignored (R95), so it has no operand (R160). -/
  | decode
  /-- `CHUNK_CONT`: a chunk with the continuation flag set (R82, R181). -/
  | chunkCont (data : Data)
  /-- `CHUNK_LAST`: a chunk with the continuation flag clear (R83, R182). -/
  | chunkLast (data : Data)
  deriving DecidableEq, Repr

/-- The two formats an instruction can have (R80). -/
inductive Format where
  | cmd
  | chunk
  deriving DecidableEq, Repr

/-- An instruction word of either format (R80). -/
inductive InstrWord where
  | cmd (w : CmdWord)
  | chunk (b : Byte)
  deriving DecidableEq, Repr

/-- The four error kinds (R201). -/
inductive ErrorKind where
  /-- The sink rejected a write; raised by ENC-CHUNK (R202). -/
  | sinkWriteError
  /-- The source could not supply a byte; raised by DEC-CHUNK (R203). -/
  | sourceReadError
  /-- The 5th chunk has its continuation bit set; raised by DEC-CHUNK at position 4 (R204). -/
  | malformedEncoding
  /-- Defined and unreachable at width 64 (R170, R205). -/
  | reinterpretationError
  deriving DecidableEq, Repr

/-- The result of an ENCODE: `Ok` with no payload, or `Err(E)` (R12, R118). -/
inductive EncResult where
  | ok
  | err (e : ErrorKind)
  deriving DecidableEq, Repr

/-- The result of a DECODE: `Ok(v)` or `Err(E)`, a sum, so that no value can be read from a failure (R118). -/
inductive DecResult where
  | ok (v : Int)
  | err (e : ErrorKind)
  deriving DecidableEq, Repr

/-- A response, which names its unit (R96, R120). -/
inductive Rsp where
  | enc (r : EncResult)
  | dec (r : DecResult)
  deriving DecidableEq, Repr

end Sys2Proof
end

