-- ==== Sys2Proof/WellFormed.lean ====
section
/-! DEFINITION. Which instruction terms are instructions of CORE: the one check there is, that the operand of
ENCODE is a signed 64-bit number (00_scope R6, 41_encode R130). The data field of a chunk form is 7 bits by its
type, and every chunk word is legal as a word (30_encoding R81). -/

namespace Sys2Proof

/-- A signed 64-bit two's-complement number, `-2^63 <= v <= 2^63 - 1` (R6). -/
def inValueRange (v : Int) : Bool :=
  decide (-2 ^ 63 ≤ v) && decide (v < 2 ^ 63)

/-- The well-formed instructions. -/
def Instr.wf : Instr → Bool
  | .encode v => inValueRange v
  | .decode => true
  | .chunkCont _ => true
  | .chunkLast _ => true

/-- The well-formed responses: the value of an `Ok(v)` is a signed 64-bit number (R96). -/
def Rsp.wf : Rsp → Bool
  | .enc _ => true
  | .dec (.ok v) => inValueRange v
  | .dec (.err _) => true

end Sys2Proof
end

