-- ==== Sys2Proof/Decode.lean ====
section
/-! DEFINITION. Reading and writing the words of CORE (30_encoding): bit fields, the two reinterpretations, the
decoder, the encoder, and the response word. -/

namespace Sys2Proof

/-- `u64(v) = v mod 2^64`: the bit-pattern reinterpretation, total (R6). -/
def u64 (v : Int) : Pattern := BitVec.ofInt 64 v

/-- `s64(u)`: the signed number with the same bit pattern, total (R6). -/
def s64 (u : Pattern) : Int := u.toInt

/-- The `cont` field of a chunk: bit 7, 1 = more chunks follow (R81). -/
def contBit (b : Byte) : Bool := b.getLsbD 7

/-- The `data` field of a chunk: bits 6:0 (R81). -/
def dataField (b : Byte) : Data := b.extractLsb' 0 7

/-- The chunk `{cont, data}` (R81, R132). -/
def chunkByte (cont : Bool) (d : Data) : Byte := BitVec.ofBool cont ++ d

/-- The `op` field of a command word: bit 64, 0 = ENCODE, 1 = DECODE (R95). -/
def opBit (w : CmdWord) : Bool := w.getLsbD 64

/-- The `value` field of a command word: bits 63:0 (R95). -/
def valueField (w : CmdWord) : Pattern := w.extractLsb' 0 64

/-- The command word `{op, value}` (R95). -/
def cmdWord (op : Bool) (value : Pattern) : CmdWord := BitVec.ofBool op ++ value

/-- Decoding a command word: bit 64 selects, and no word is illegal (R95, R97). -/
def decodeCmd (w : CmdWord) : Instr :=
  if opBit w then .decode else .encode (s64 (valueField w))

/-- Decoding a chunk: bit 7 selects, and every byte is a chunk (R81, R91, R97). -/
def decodeChunk (b : Byte) : Instr :=
  if contBit b then .chunkCont (dataField b) else .chunkLast (dataField b)

/-- Decoding a word of either format. -/
def decodeWord : InstrWord → Instr
  | .cmd w => decodeCmd w
  | .chunk b => decodeChunk b

/-- The encoder: the word of an instruction; DECODE in its canonical spelling, value bits 0 (R82, R83, R95). -/
def encodeWord : Instr → InstrWord
  | .encode v => .cmd (cmdWord false (u64 v))
  | .decode => .cmd (cmdWord true 0)
  | .chunkCont d => .chunk (chunkByte true d)
  | .chunkLast d => .chunk (chunkByte false d)

/-- Why a number is no word of a format. -/
inductive DecodeReject where
  /-- More than the 65 bits of a command word (R80). -/
  | widerThanCommand
  /-- More than the 8 bits of a chunk (R80). -/
  | widerThanChunk
  deriving DecidableEq, Repr

/-- A word from its number, bit 0 the least significant; rejected by name where it has bits above its format. -/
def wordOfNat (f : Format) (n : Nat) : Except DecodeReject InstrWord :=
  match f with
  | .cmd => if n < 2 ^ 65 then .ok (.cmd (BitVec.ofNat 65 n)) else .error .widerThanCommand
  | .chunk => if n < 2 ^ 8 then .ok (.chunk (BitVec.ofNat 8 n)) else .error .widerThanChunk

/-- The format of an opcode-table row from the number of bits the table gives it: 8 for a chunk, 65 for a command
(in whole bytes 72; the bits above 64 are then 0). DESIGN CHOICE, log 21, safe. -/
def formatOfBits (nbits : Nat) : Format := if nbits ≤ 8 then .chunk else .cmd

/-- What the decoder reads from an instruction whose bits, numbered as the opcode table numbers them, are `w`. -/
def decodeTableWord (nbits w : Nat) : Option Instr :=
  match wordOfNat (formatOfBits nbits) w with
  | .ok word => some (decodeWord word)
  | .error _ => none

/-- The status code of an error kind (R201). -/
def errorCode : ErrorKind → BitVec 3
  | .sinkWriteError => 1
  | .sourceReadError => 2
  | .malformedEncoding => 3
  | .reinterpretationError => 4

/-- What a status code says: `none` is OK; 5, 6 and 7 are reserved and rejected by the code (R96, R201). -/
def statusOf (code : BitVec 3) : Except (BitVec 3) (Option ErrorKind) :=
  if code = 0 then .ok none
  else if code = 1 then .ok (some .sinkWriteError)
  else if code = 2 then .ok (some .sourceReadError)
  else if code = 3 then .ok (some .malformedEncoding)
  else if code = 4 then .ok (some .reinterpretationError)
  else .error code

/-- The response word `{unit, status, value}` (R96). The value bits are absent from every response but DEC's
`Ok(v)`: the argument `absent` stands for them, any bits, and no rule reads them (R118, U7). -/
def encodeRsp (absent : Pattern) : Rsp → RspWord
  | .enc .ok => BitVec.ofBool false ++ (0 : BitVec 3) ++ absent
  | .enc (.err e) => BitVec.ofBool false ++ errorCode e ++ absent
  | .dec (.ok v) => BitVec.ofBool true ++ (0 : BitVec 3) ++ u64 v
  | .dec (.err e) => BitVec.ofBool true ++ errorCode e ++ absent

/-- Reading a response word: the value bits are read only for DEC's `Ok(v)` (R96, R118); a reserved status is
rejected with its code. -/
def decodeRsp (w : RspWord) : Except (BitVec 3) Rsp :=
  match statusOf (w.extractLsb' 64 3) with
  | .error c => .error c
  | .ok none => if w.getLsbD 67 then .ok (.dec (.ok (s64 (w.extractLsb' 0 64)))) else .ok (.enc .ok)
  | .ok (some e) => if w.getLsbD 67 then .ok (.dec (.err e)) else .ok (.enc (.err e))

end Sys2Proof
end

