-- ==== Sys2Proof/Machine/State.lean ====
section
/-! DEFINITION. The state of the machine as plain data: CORE's seven elements (10_state R20; MAX_SIZE is the constant
`Config.maxSize`), the environment CORE acts on (20_memory R50), and the reset state (10_state R37). -/

namespace Sys2Proof.Machine

/-- The run-state flag of a unit, one bit: `IDLE` = 0, `RUN` = 1 (R26). -/
inductive RunState where
  | idle
  | run
  deriving DecidableEq, Repr

/-- The encoder unit: `ENC.rem`, `ENC.cnt`, `ENC.st` (R20, R21, R23, R26). -/
structure Enc where
  rem : Pattern
  cnt : Pos
  st : RunState
  deriving DecidableEq, Repr

/-- The decoder unit: `DEC.acc`, `DEC.pos`, `DEC.st` (R20, R22, R24, R26). -/
structure Dec where
  acc : Pattern
  pos : Pos
  st : RunState
  deriving DecidableEq, Repr

/-- What a sink answers once its scripted answers are used up: a free draw (U10), or always `ok` as in the
reference environment (D19). -/
inductive SinkRest where
  | free
  | accepts
  deriving DecidableEq, Repr

/-- What a source answers once its scripted answers are used up: a free draw (U10), always a failure that moves
nothing (D19, the end of the stream), or the bytes the attached sink holds, in order (D19, `.loopback`). -/
inductive SourceRest where
  | free
  | ends
  | loopback
  deriving DecidableEq, Repr

/-- A byte sink (20_memory R52, R53): the bytes it holds, first byte first, and the answers it will give. -/
structure Sink where
  content : List Byte
  answers : List SinkAnswer
  rest : SinkRest
  deriving DecidableEq, Repr

/-- A byte source (20_memory R56): its position, as a count of bytes, and the answers it will give. -/
structure Source where
  position : Nat
  answers : List SourceAnswer
  rest : SourceRest
  deriving DecidableEq, Repr

/-- What the host, or another user of a stream, does on the host's turn (R9, R51, R73, R240). -/
inductive HostEvent where
  /-- Offer a command word (R114, R115). -/
  | issue (w : CmdWord)
  /-- Wait for the oldest response of ENC and take it (R9, R120). -/
  | takeEnc
  /-- Wait for the oldest response of DEC and take it (R9, R120). -/
  | takeDec
  /-- Wait until every command issued has its response, or is abandoned by RESET (30_encoding R98). -/
  | await
  /-- The same of the ENCODE commands alone (30_encoding R98). -/
  | awaitEnc
  /-- The same of the DECODE commands alone (30_encoding R98). -/
  | awaitDec
  /-- The reset event (R240). -/
  | reset
  /-- Attach a sink to ENC (R51, R243). -/
  | attachSink (k : Sink)
  /-- Attach a source to DEC (R51, R243). -/
  | attachSource (c : Source)
  /-- Another agent writes a byte to the attached sink (R73). -/
  | foreignWrite (b : Byte)
  /-- Another agent reads the attached source (R73). -/
  | foreignRead
  deriving DecidableEq, Repr

/-- Why the machine would stop with a fault. No step of CORE faults (R200). -/
inductive Fault where
  /-- Raised by `hostReadRsp` alone, on the host's side, for a response word with status 5, 6 or 7 (U8). CORE never
  produces one (R96), so no `step` raises it. Safe: it stops where the spec gives no meaning. -/
  | reservedStatus (code : BitVec 3)
  deriving DecidableEq, Repr

/-- Why the model gives a step no meaning. -/
inductive Refusal where
  /-- An instruction without a meaning; no arm of `exec` uses it. Safe. -/
  | notModelled (mnemonic : String)
  /-- Raised by `hostEvent`: the host changes the stream attached to a unit in RUN (R51, U12: refuse). Safe. -/
  | attachmentChanged
  /-- Raised by `hostEvent`: another agent uses the stream of a unit in RUN (R73, R244, U6: refuse). Safe. -/
  | ownershipViolated
  deriving DecidableEq, Repr

/-- The state. `enc` and `dec` are CORE (R20). The rest is the environment, which the spec leaves with the caller
and the model holds as data (DESIGN CHOICE, log 1, safe): the attached streams, the host's coming events, the
commands it offers, the responses it has not yet taken, whose turn comes next, and the counter of free draws. -/
structure State where
  enc : Enc
  dec : Dec
  sink : Sink
  source : Source
  inputs : List HostEvent
  offers : List CmdWord
  encRsps : List EncResult
  decRsps : List DecResult
  sched : List Agent
  draws : Nat
  deriving DecidableEq, Repr

/-- ENC between operations: IDLE with cleared registers (R35, R37). -/
def Enc.cleared : Enc := { rem := 0, cnt := 0, st := .idle }

/-- DEC between operations: IDLE with cleared registers (R35, R37). -/
def Dec.cleared : Dec := { acc := 0, pos := 0, st := .idle }

/-- The state right after RESET: CORE as R37 says. The environment's fields have no reset value in the spec
(DESIGN CHOICE, log 18): an empty sink and a source at position 0, both answering freely, no host event, offer or
response, and a free schedule. -/
def State.reset : State :=
  { enc := Enc.cleared
    dec := Dec.cleared
    sink := { content := [], answers := [], rest := .free }
    source := { position := 0, answers := [], rest := .free }
    inputs := []
    offers := []
    encRsps := []
    decRsps := []
    sched := []
    draws := 0 }

end Sys2Proof.Machine
end

