-- ==== Sys2Proof/Machine/Flags.lean ====
section
/-! DEFINITION. The flags of CORE: the two run-state flags, stored (10_state R26), and the continuation flag,
computed within one step and never stored (10_state R27). CORE has no condition code. -/

namespace Sys2Proof.Machine

/-- ENC's remaining value after this chunk: a logical shift right by 7 (R132, R136). -/
def restOf (rem : Pattern) : Pattern := rem >>> Config.dataBits

/-- ENC's continuation flag: `more = (ENC.rem >> 7) != 0`, tested after the shift (R27, R132). -/
def moreFlag (rem : Pattern) : Bool := restOf rem != 0

/-- DEC's continuation flag: `cont = b[7]` of the byte just read (R27, R162). -/
def contFlag (b : Byte) : Bool := contBit b

/-- Whether an ENCODE is in progress (R26). -/
def State.encRuns (s : State) : Bool := s.enc.st == .run

/-- Whether a DECODE is in progress (R26). -/
def State.decRuns (s : State) : Bool := s.dec.st == .run

end Sys2Proof.Machine
end

