-- ==== Sys2Proof/Machine/Operands.lean ====
section
/-! DEFINITION. The operands of CORE's steps: the value of a command, the fields of a chunk, the accumulator a chunk
is folded into, and the final conversion. -/

namespace Sys2Proof.Machine

/-- The low 7 bits of the remaining value, this chunk's data (R132). -/
def lowData (rem : Pattern) : Data := rem.extractLsb' 0 7

/-- The byte ENC writes for a remaining value: `{more, d}` (R132). -/
def chunkOf (rem : Pattern) : Byte := chunkByte (moreFlag rem) (lowData rem)

/-- The fold: the data field, zero-extended, shifted left by `7 * pos`, ORed into the accumulator (R162, R166). -/
def fold (acc : Pattern) (pos : Pos) (d : Data) : Pattern :=
  acc ||| (d.setWidth 64 <<< (Config.dataBits * pos.toNat))

/-- The final conversion of DEC: the bit-pattern reinterpretation `s64`, with the failure path the source keeps:
a pattern that does not fit the width of the output type. At width 64 every pattern fits, so the path is never
taken (R169, R170, R205, U2). DEDUCED, log 15, safe: the branch is dead. -/
def finalConversion (acc : Pattern) : Except ErrorKind Int :=
  if acc.toNat < 2 ^ Config.valueWidth then .ok (s64 acc) else .error .reinterpretationError

/-- Whether a unit stands at the last allowed position, `MAX_SIZE - 1` (R132, R162). The positions 5, 6, 7 are
never held (R23, R24); the test is the equality with 4 that the rules write. DEDUCED, log 10, safe. -/
def atLastPos (pos : Pos) : Bool := pos == Config.lastPos

end Sys2Proof.Machine
end

