-- ==== Sys2Proof/Machine/Ops.lean ====
section
/-! DEFINITION. The named operations of the machine: one update per field of State, the constant MAX_SIZE, the two
stream accesses, accepting a command, ending an operation with success or with an error (the one exception entry,
60_exceptions R210), RESET, and the offers in the host's hand. -/

namespace Sys2Proof.Machine

/-- Update of ENC. -/
def State.setEnc (s : State) (e : Enc) : State := { s with enc := e }

/-- Update of DEC. -/
def State.setDec (s : State) (d : Dec) : State := { s with dec := d }

/-- Update of the attached sink. -/
def State.setSink (s : State) (k : Sink) : State := { s with sink := k }

/-- Update of the attached source. -/
def State.setSource (s : State) (c : Source) : State := { s with source := c }

/-- Update of the host's coming events. -/
def State.setInputs (s : State) (l : List HostEvent) : State := { s with inputs := l }

/-- Update of the offered commands. -/
def State.setOffers (s : State) (l : List CmdWord) : State := { s with offers := l }

/-- Update of ENC's responses. -/
def State.setEncRsps (s : State) (l : List EncResult) : State := { s with encRsps := l }

/-- Update of DEC's responses. -/
def State.setDecRsps (s : State) (l : List DecResult) : State := { s with decRsps := l }

/-- `MAX_SIZE` as presented to the host: a hard-wired 3-bit constant, the only element the host can read
(R28, R36). No state holds it and no write changes it. -/
def State.maxSize (_ : State) : BitVec 3 := BitVec.ofNat 3 Config.maxSize

/-- The sink's answer to the write offered now: the next scripted one, then what its rest says; an uncovered
answer is the free value at the counter `draws` (R52). -/
def State.sinkAnswer (s : State) : SinkAnswer :=
  match s.sink.answers with
  | a :: _ => a
  | [] =>
    match s.sink.rest with
    | .free => Config.freeSinkAnswer s.draws
    | .accepts => .ok

/-- What a write of `b` adds to the sink's content: `b` if accepted, else what the failed write leaves (R53, R54). -/
def written (b : Byte) : SinkAnswer → List Byte
  | .ok => [b]
  | .fail left => left

/-- The effect of `SinkWrite(b)` answered by `a` on the sink: earlier bytes stay, and the answer is used up
(R53, R54). -/
def State.sinkWrite (s : State) (b : Byte) (a : SinkAnswer) : State :=
  s.setSink { s.sink with content := s.sink.content ++ written b a, answers := s.sink.answers.tail }

/-- The source's answer to the read made now: the next scripted one, then what its rest says; an uncovered answer
is the free value at the counter `draws` (R56), and a loopback supplies the byte at the source's position of
the sink that is attached at the read (D19); after the host has replaced the sink that is the new one, at the old
position (DESIGN CHOICE, log 27, unsafe). -/
def State.sourceAnswer (s : State) : SourceAnswer :=
  match s.source.answers with
  | a :: _ => a
  | [] =>
    match s.source.rest with
    | .free => Config.freeSourceAnswer s.draws
    | .ends => .fail 0
    | .loopback =>
      match s.sink.content[s.source.position]? with
      | some b => .byte b
      | none => .fail 0

/-- By how many bytes a read moves the source's position (R56, R57). -/
def moved : SourceAnswer → Nat
  | .byte _ => 1
  | .fail n => n

/-- The effect of `SourceRead()` answered by `a` on the source: a supplied byte is consumed (R56). -/
def State.sourceRead (s : State) (a : SourceAnswer) : State :=
  s.setSource { s.source with position := s.source.position + moved a, answers := s.source.answers.tail }

/-- ENC-ACCEPT: `ENC.rem <- u64(v)`, `ENC.cnt <- 0`, `ENC.st <- RUN`; no stream access (R114, R131). -/
def State.acceptEnc (s : State) (v : Int) : State :=
  s.setEnc { rem := u64 v, cnt := 0, st := .run }

/-- DEC-ACCEPT: `DEC.acc <- 0`, `DEC.pos <- 0`, `DEC.st <- RUN`; no stream access (R115, R161). -/
def State.acceptDec (s : State) : State :=
  s.setDec { acc := 0, pos := 0, st := .run }

/-- The end of an operation of ENC: the response is emitted, the registers are cleared and ENC is IDLE, in one step
(R35, R117, R210). -/
def State.endEnc (s : State) (r : EncResult) : State :=
  (s.setEnc Enc.cleared).setEncRsps (s.encRsps ++ [r])

/-- The end of an operation of DEC, as for ENC (R35, R117, R210). -/
def State.endDec (s : State) (r : DecResult) : State :=
  (s.setDec Dec.cleared).setDecRsps (s.decRsps ++ [r])

/-- `respond_enc(OK)` (R117). -/
def State.respondEnc (s : State) : State := s.endEnc .ok

/-- `respond_dec(OK, v)` (R117). -/
def State.respondDec (s : State) (v : Int) : State := s.endDec (.ok v)

/-- `raise E` in ENC: taking an exception. Nothing is saved, control goes nowhere, DEC is untouched (R210). There
is no return: the unit is IDLE and accepts the next command (R212). -/
def State.raiseEnc (s : State) (e : ErrorKind) : State := s.endEnc (.err e)

/-- `raise E` in DEC (R210). -/
def State.raiseDec (s : State) (e : ErrorKind) : State := s.endDec (.err e)

/-- `RESET`: both units IDLE with registers 0; the streams keep the effect of every access, and an operation in
progress gets no response (R241, R242). -/
def State.resetCore (s : State) : State := (s.setEnc Enc.cleared).setDec Dec.cleared

/-- The command stays in the host's hand: not accepted, not dropped, no error (R116). -/
def State.holdOffer (s : State) (w : CmdWord) : State := s.setOffers (w :: s.offers)

/-- The first offered word that `p` holds of, with the words left: the commands of one unit are taken in the order
in which they were offered, whatever the other unit's commands do (R116, R120). -/
def takeOffer (p : CmdWord → Bool) : List CmdWord → Option (CmdWord × List CmdWord)
  | [] => none
  | w :: ws =>
    if p w then some (w, ws)
    else
      match takeOffer p ws with
      | none => none
      | some (x, xs) => some (x, w :: xs)

/-- The host's reading of a response word: a reserved status is a fault on the host's side (U8). -/
def hostReadRsp (w : RspWord) : Host.Outcome Rsp Fault Refusal :=
  match decodeRsp w with
  | .ok r => .next r
  | .error c => .fault (.reservedStatus c)

end Sys2Proof.Machine
end

