-- ==== Sys2Proof/Machine/Chunks.lean ====
section
/-! DEFINITION. The meanings of the two chunk forms as DEC interprets them at position `DEC.pos` (42_decode R181,
R182): the rest of the DEC-CHUNK step once its byte is in hand (R162, R163). A DEC in IDLE interprets no chunk
(R162: enabled in RUN only), so there the form changes nothing. DEDUCED, log 9, safe. -/

namespace Sys2Proof.Machine

/-- `CHUNK_CONT`: at the last position `MalformedEncoding`, data unused; else fold and go on (R181). -/
def execChunkCont (d : Data) (s : State) : Host.Outcome State Fault Refusal :=
  if s.decRuns then
    if atLastPos s.dec.pos then .next (s.raiseDec .malformedEncoding)
    else .next (s.setDec { s.dec with acc := fold s.dec.acc s.dec.pos d, pos := s.dec.pos + 1 })
  else .next s

/-- `CHUNK_LAST`: fold, convert and respond, which ends the operation (R182). -/
def execChunkLast (d : Data) (s : State) : Host.Outcome State Fault Refusal :=
  if s.decRuns then
    match finalConversion (fold s.dec.acc s.dec.pos d) with
    | .ok v => .next (s.respondDec v)
    | .error e => .next (s.raiseDec e)
  else .next s

end Sys2Proof.Machine
end

