-- ==== Sys2Proof/Machine/Commands.lean ====
section
/-! DEFINITION. The meanings of the two host commands, ENCODE (41_encode) and DECODE (42_decode): a command is one
step of its unit. What the unit does after it are its chunk steps (Machine/Encoder.lean, Machine/Chunks.lean). -/

namespace Sys2Proof.Machine

/-- `ENCODE v` offered to ENC: accepted in IDLE, every `v` (R114, R131); held by the host in RUN (R116). -/
def execEncode (v : Int) (s : State) : Host.Outcome State Fault Refusal :=
  if s.encRuns then .next (s.holdOffer (cmdWord false (u64 v))) else .next (s.acceptEnc v)

/-- `DECODE` offered to DEC: accepted in IDLE (R115, R161); held by the host in RUN (R116). -/
def execDecode (s : State) : Host.Outcome State Fault Refusal :=
  if s.decRuns then .next (s.holdOffer (cmdWord true 0)) else .next s.acceptDec

end Sys2Proof.Machine
end

