-- ==== Sys2Proof/Machine/Encoder.lean ====
section
/-! DEFINITION. ENC-CHUNK, the step of ENC that emits one chunk (41_encode R132). -/

namespace Sys2Proof.Machine

/-- After an accepted write: the operation ends if no bits remain or this was the 5th chunk, whatever `more` is;
else ENC goes on to the next chunk (R132, R141). -/
def encAdvance (rem : Pattern) (cnt : Pos) (s : State) : State :=
  if !(moreFlag rem) || atLastPos cnt then s.respondEnc
  else s.setEnc { rem := restOf rem, cnt := cnt + 1, st := .run }

/-- ENC-CHUNK: one write of the chunk computed from the state at the start of the step; a failed write raises
`SinkWriteError` (R132, R135). -/
def encChunk (s : State) : State :=
  match s.sinkAnswer with
  | .ok => encAdvance s.enc.rem s.enc.cnt (s.sinkWrite (chunkOf s.enc.rem) .ok)
  | .fail left => (s.sinkWrite (chunkOf s.enc.rem) (.fail left)).raiseEnc .sinkWriteError

end Sys2Proof.Machine
end

