-- ==== Sys2Proof/Machine/Dispatch.lean ====
section
/-! DEFINITION. One arm per instruction (30_encoding R97). -/

namespace Sys2Proof.Machine

def exec (i : Instr) (s : State) : Host.Outcome State Fault Refusal :=
  match i with
  | .encode v => Sys2Proof.Machine.execEncode v s
  | .decode => Sys2Proof.Machine.execDecode s
  | .chunkCont d => Sys2Proof.Machine.execChunkCont d s
  | .chunkLast d => Sys2Proof.Machine.execChunkLast d s

end Sys2Proof.Machine
end

