-- ==== Sys2Proof/Machine/Agents.lean ====
section
/-! DEFINITION. The steps of the agents (00_scope R9): what ENC, DEC and the host do on a turn of theirs. A unit with
no enabled step does nothing on its turn (60_exceptions R221). DEDUCED, log 8, safe. -/

namespace Sys2Proof.Machine

/-- ENC's turn: in RUN one chunk step; in IDLE it accepts the first offered ENCODE, which is then consumed, or has
no enabled step (R114, R131, R132). -/
def encStep (s : State) : Host.Outcome State Fault Refusal :=
  if s.encRuns then .next (encChunk s)
  else
    match takeOffer (fun w => !opBit w) s.offers with
    | none => .next s
    | some (w, ws) => exec (decodeCmd w) (s.setOffers ws)

/-- DEC's turn: in RUN it reads one byte and interprets it as a chunk, or raises `SourceReadError` (R162 to R164);
in IDLE it accepts the first offered DECODE, or has no enabled step (R115, R161). -/
def decStep (s : State) : Host.Outcome State Fault Refusal :=
  if s.decRuns then
    match s.sourceAnswer with
    | .fail n => .next ((s.sourceRead (.fail n)).raiseDec .sourceReadError)
    | .byte b => exec (decodeChunk b) (s.sourceRead (.byte b))
  else
    match takeOffer opBit s.offers with
    | none => .next s
    | some (w, ws) => exec (decodeCmd w) (s.setOffers ws)

/-- One event of the host, on a state whose event list it has left. Attaching a sink is refused for a running ENC alone,
so a loopback source goes on with the new sink (R51; DESIGN CHOICE, log 27, unsafe). A stream answers another agent's
access as it answers CORE's: the next scripted answer is used up, and a foreign write that fails leaves the bytes of its
answer (R73; DESIGN CHOICE, log 28, unsafe). -/
def hostEvent (s : State) : HostEvent → Host.Outcome State Fault Refusal
  | .issue w => .next (s.setOffers (s.offers ++ [w]))
  | .takeEnc => .next (s.setEncRsps s.encRsps.tail)
  | .takeDec => .next (s.setDecRsps s.decRsps.tail)
  | .await => .next s
  | .awaitEnc => .next s
  | .awaitDec => .next s
  | .reset => .next s.resetCore
  | .attachSink k => if s.encRuns then .refused .attachmentChanged else .next (s.setSink k)
  | .attachSource c => if s.decRuns then .refused .attachmentChanged else .next (s.setSource c)
  | .foreignWrite b =>
    if s.encRuns then .refused .ownershipViolated else .next (s.sinkWrite b s.sinkAnswer)
  | .foreignRead =>
    if s.decRuns then .refused .ownershipViolated else .next (s.sourceRead s.sourceAnswer)

/-- Whether an ENCODE of the host is outstanding: still offered, or accepted and neither responded to nor abandoned by
RESET, which is when ENC is in RUN (R26). The host knows this of its own acts and the responses (R36). -/
def State.encOutstanding (s : State) : Bool := s.offers.any (fun w => !opBit w) || s.encRuns

/-- Whether a DECODE of the host is outstanding. -/
def State.decOutstanding (s : State) : Bool := s.offers.any opBit || s.decRuns

/-- Whether a command of the host is outstanding. -/
def State.outstanding (s : State) : Bool := s.encOutstanding || s.decOutstanding

/-- Whether the host waits at an event: it takes a response only once there is one (R9), and a wait for the commands
issued ends once none is outstanding (R98). DESIGN CHOICE, log 13, safe. -/
def hostWaits (s : State) : HostEvent → Bool
  | .takeEnc => s.encRsps.isEmpty
  | .takeDec => s.decRsps.isEmpty
  | .await => s.outstanding
  | .awaitEnc => s.encOutstanding
  | .awaitDec => s.decOutstanding
  | .issue _ | .reset | .attachSink _ | .attachSource _ | .foreignWrite _ | .foreignRead => false

/-- The host's turn: its next event, unless it has none or waits (R9). -/
def hostStep (s : State) : Host.Outcome State Fault Refusal :=
  match s.inputs with
  | [] => .next s
  | e :: es => if hostWaits s e then .next s else hostEvent (s.setInputs es) e

/-- Whose turn it is: the next of the schedule, else the free value at the counter `draws` (R68, D17). -/
def nextAgent (s : State) : Agent :=
  match s.sched with
  | a :: _ => a
  | [] => Config.freeAgent s.draws

/-- The turn is used up, and the counter of free draws moves on. -/
def advance (s : State) : State := { s with sched := s.sched.tail, draws := s.draws + 1 }

/-- A turn of one agent. -/
def agentStep (a : Agent) (s : State) : Host.Outcome State Fault Refusal :=
  match a with
  | .host => hostStep s
  | .enc => encStep s
  | .dec => decStep s

/-- What placing a word for the next step takes (the log entry on running from reset, 19): a command is offered to
its unit, which is IDLE and has the next turn; a chunk is the next byte of the source of a DEC that is in RUN and
has the next turn. -/
def placeWord (s : State) : InstrWord → State
  | .cmd w =>
    if opBit w then
      { s with dec := { s.dec with st := .idle }, offers := w :: s.offers, sched := .dec :: s.sched }
    else
      { s with enc := { s.enc with st := .idle }, offers := w :: s.offers, sched := .enc :: s.sched }
  | .chunk b =>
    { s with
      dec := { s.dec with st := .run }
      source := { s.source with answers := .byte b :: s.source.answers }
      sched := .dec :: s.sched }

end Sys2Proof.Machine
end

