-- ==== Sys2Proof/Machine/Step.lean ====
section
/-! DEFINITION. One step of the machine: one turn of one agent (00_scope R8, R9). -/

namespace Sys2Proof.Machine

/-- One step: the agent whose turn it is takes its step; any interleaving of the agents is a schedule (R68). -/
def step (s : State) : Host.Outcome State Fault Refusal :=
  agentStep (nextAgent s) (advance s)

/-- The state with an instruction word of the opcode table placed where the next step takes it. A number that is no
word of its format places nothing. -/
def State.withFetchWord (s : State) (nbits w : Nat) : State :=
  match wordOfNat (formatOfBits nbits) w with
  | .ok word => placeWord s word
  | .error _ => s

end Sys2Proof.Machine
end

