-- ==== Sys2Proof/Machine/Environment.lean ====
section
/-! DEFINITION. The environment lines and command lines of the spec's programs (30_encoding R98) as values of the
model: the reference environment (92_eei_decisions D19), one instance of what a sink and a source may do, and the
host's events for a program: a command is issued after the response of the one before it, the line after a `||` line as
the schedule says, a RESET at any time. DESIGN
CHOICE, log 5, safe. -/

namespace Sys2Proof.Machine

/-- `.sink ok`: an empty sink that accepts every write. -/
def refSinkOk : Sink := { content := [], answers := [], rest := .accepts }

/-- `.sink fail_at <k>`: the k-th write, k from 1, fails and appends nothing; the others are accepted. A program
attaches it before its first write (`programSink`), so that is the k-th write of the program. -/
def refSinkFailAt (k : Nat) : Sink :=
  { content := [], answers := List.replicate (k - 1) .ok ++ [.fail []], rest := .accepts }

/-- `.source <byte> ...`: the bytes, in order; after them every read fails and moves nothing. -/
def refSource (bytes : List Byte) : Source :=
  { position := 0, answers := bytes.map .byte, rest := .ends }

/-- `.loopback`: the bytes the sink has accepted, in order. -/
def refLoopback : Source := { position := 0, answers := [], rest := .loopback }

/-- The lines of a program (R98). An `<int>` written as the hexadecimal of a 64-bit pattern is that number: `u64` gives
the pattern back. -/
inductive ProgramLine where
  | encode (v : Int)
  | decode
  | both (v : Int)
  | reset
  | source (bytes : List Byte)
  | sinkOk
  | sinkFailAt (k : Nat)
  | loopback
  deriving DecidableEq, Repr

/-- What stands before a line of a program: no command, an ENCODE, a DECODE, a `||` line, or a `||` line and then a
RESET. -/
inductive Before where
  | nothing
  | enc
  | dec
  | both
  | bothThenReset
  deriving DecidableEq, Repr

/-- What the host waits for before it issues a command: the response of the command before it. The line after a `||`
line is issued as the schedule says, so there the host waits for nothing of its own. -/
def Before.waits : Before → List HostEvent
  | .nothing => []
  | .enc => [.awaitEnc]
  | .dec => [.awaitDec]
  | .both => []
  | .bothThenReset => [.await]

/-- What stands before the next line. A RESET after a `||` line is the line that the schedule places, and a line of the
environment is not issued. -/
def Before.after (b : Before) : ProgramLine → Before
  | .encode _ => .enc
  | .decode => .dec
  | .both _ => .both
  | .reset => if b = .both then .bothThenReset else b
  | .source _ | .sinkOk | .sinkFailAt _ | .loopback => b

/-- The command words a line issues. -/
def lineWords : ProgramLine → List CmdWord
  | .encode v => [cmdWord false (u64 v)]
  | .decode => [cmdWord true 0]
  | .both v => [cmdWord false (u64 v), cmdWord true 0]
  | .reset | .source _ | .sinkOk | .sinkFailAt _ | .loopback => []

/-- A line that issues commands: the wait, and then its commands, all of them before the host waits again. The responses
stay with the host until it takes them. -/
def commandLine (b : Before) (line : ProgramLine) : List HostEvent := b.waits ++ (lineWords line).map .issue

/-- `RESET`: it waits for nothing, so the schedule may place it between two steps of an operation in progress. -/
def lineReset : List HostEvent := [.reset]

/-- What the host does at a line, by what stands before it. A line of the environment is no act at its place: it
describes the whole program's environment (`environmentEvents`). -/
def lineEvents (b : Before) : ProgramLine → List HostEvent
  | .encode v => commandLine b (.encode v)
  | .decode => commandLine b .decode
  | .both v => commandLine b (.both v)
  | .reset => lineReset
  | .source _ | .sinkOk | .sinkFailAt _ | .loopback => []

/-- The sink that a line describes. -/
def lineSink : ProgramLine → Option Sink
  | .sinkOk => some refSinkOk
  | .sinkFailAt k => some (refSinkFailAt k)
  | .encode _ | .decode | .both _ | .reset | .source _ | .loopback => none

/-- The bytes that a line says the source will supply. -/
def lineBytes : ProgramLine → Option (List Byte)
  | .source bytes => some bytes
  | .encode _ | .decode | .both _ | .reset | .sinkOk | .sinkFailAt _ | .loopback => none

/-- The sink of a program, if it describes one: attached before the program's first write, so its `k`-th write is the
`k`-th write of the program, wherever the line stands. Of several lines the last holds (log 5). -/
def programSink (p : List ProgramLine) : Option Sink := (p.filterMap lineSink).getLast?

/-- The source of a program, if it describes one: the loopback if a line says so, else the bytes of its `.source` lines
in order (log 5). -/
def programSource (p : List ProgramLine) : Option Source :=
  if .loopback ∈ p then some refLoopback
  else if p.filterMap lineBytes = [] then none
  else some (refSource (p.filterMap lineBytes).flatten)

/-- The environment of a program is attached before its commands, once no earlier command is outstanding (R51). -/
def environmentEvents (p : List ProgramLine) : List HostEvent :=
  .await :: (programSink p).toList.map .attachSink ++ (programSource p).toList.map .attachSource

/-- The host's acts at the lines of a program, in order. -/
def commandEvents : Before → List ProgramLine → List HostEvent
  | _, [] => []
  | b, line :: p => lineEvents b line ++ commandEvents (b.after line) p

/-- The host's events of a program (R98). -/
def programEvents (p : List ProgramLine) : List HostEvent := environmentEvents p ++ commandEvents .nothing p

end Sys2Proof.Machine
end

