-- ==== Sys2Proof/Machine/Wire.lean ====
section
/-! DEFINITION. The closed forms of the spec, in which claims about whole operations are stated: the valid domain, the
function from a value to its bytes, the function from a source's answers to a result, and the well-formed and the
minimal encodings. The machine does not use them. -/

namespace Sys2Proof.Machine

/-- The valid domain `VALID`, `0 <= v <= 2^35 - 1` (R7). -/
abbrev valid (v : Int) : Prop := 0 ≤ v ∧ v ≤ 34359738367

/-- `n(u)`: the least `k` in 1 .. 5 with `u >> (7k) = 0`, or 5 (R134). -/
def encLen (u : Pattern) : Nat :=
  if u >>> 7 = 0 then 1
  else if u >>> 14 = 0 then 2
  else if u >>> 21 = 0 then 3
  else if u >>> 28 = 0 then 4
  else 5

/-- `b_p = ((u >> 7p) & 0x7F) | (0x80 if (u >> (7(p+1))) != 0 else 0x00)` (R134). -/
def encByte (u : Pattern) (p : Nat) : Byte :=
  ((u >>> (7 * p)) &&& 0x7F).setWidth 8 ||| (if u >>> (7 * (p + 1)) = 0 then 0x00 else 0x80)

/-- `enc_bytes(v)`: the bytes a successful ENCODE of `v` writes (R134). -/
def encBytes (v : Int) : List Byte := (List.range (encLen (u64 v))).map (encByte (u64 v))

/-- `U(b_0 ... b_{n-1})`: the sum of `b_p[6:0] * 2^(7p)` (R86). -/
def denoted (bs : List Byte) : Nat :=
  (bs.zipIdx.map fun x => (dataField x.1).toNat * 2 ^ (7 * x.2)).sum

/-- A well-formed encoding: 1 to 5 bytes, a CHUNK_CONT each but the last, which is a CHUNK_LAST (R84). -/
def wellFormedEncoding (bs : List Byte) : Bool :=
  decide (1 ≤ bs.length) && decide (bs.length ≤ 5) && bs.dropLast.all contBit
    && bs.getLast?.all (fun b => !contBit b)

/-- A minimal encoding: well-formed, and no well-formed encoding of the same value is shorter (R92). -/
def minimalEncoding (bs : List Byte) : Prop :=
  wellFormedEncoding bs = true ∧
    ∀ cs, wellFormedEncoding cs = true → denoted cs = denoted bs → bs.length ≤ cs.length

/-- An answer at which a DECODE stops at the latest: a failure, or a byte with bit 7 clear (R171). -/
def stopsAt : SourceAnswer → Bool
  | .fail _ => true
  | .byte b => !contBit b

/-- `k`: the least index up to 4 whose answer stops a DECODE, if there is one (R171). -/
def stopIndex (a : Nat → SourceAnswer) : Option Nat := (List.range 5).find? fun k => stopsAt (a k)

/-- The byte of an answer; used below only for answers that are bytes. -/
def byteOf : SourceAnswer → Byte
  | .byte b => b
  | .fail _ => 0

/-- The bytes of the first `n` answers. -/
def firstBytes (a : Nat → SourceAnswer) (n : Nat) : List Byte := (List.range n).map fun p => byteOf (a p)

/-- `dec(s)`: the result of a DECODE whose source answers by `a`, and the bytes it consumes (R171). -/
def decOutcome (a : Nat → SourceAnswer) : DecResult × Nat :=
  match stopIndex a with
  | none => (.err .malformedEncoding, 5)
  | some k =>
    match a k with
    | .fail _ => (.err .sourceReadError, k)
    | .byte _ => (.ok (s64 (BitVec.ofNat 64 (denoted (firstBytes a (k + 1))))), k + 1)

/-- How many reads a DECODE makes: up to and with the answer that ends it, at most 5 (R167). -/
def decReads (a : Nat → SourceAnswer) : Nat :=
  match stopIndex a with
  | none => 5
  | some k => k + 1

end Sys2Proof.Machine
end

