-- ==== Sys2Proof/Safety.lean ====
section
/-! DEFINITION. What counts as a safe state of CORE and as progress of an operation, in the terms the claims use. -/

namespace Sys2Proof.Safety

open Sys2Proof.Machine

/-- ENC holds what a run can leave in it: cleared in IDLE (R35); in RUN a position from 0 to 4 (R23), no value bit
above those still to come (R136), and, past the first chunk, a value bit left (R132). -/
def EncOk (e : Enc) : Prop :=
  match e.st with
  | .idle => e.rem = 0 ∧ e.cnt = 0
  | .run => e.cnt.toNat ≤ 4 ∧ e.rem.toNat < 2 ^ (64 - 7 * e.cnt.toNat) ∧ (e.cnt ≠ 0 → e.rem ≠ 0)

/-- DEC holds what a run can leave in it: cleared in IDLE (R35); in RUN a position from 0 to 4 (R24) and no
accumulator bit at or above `7 * pos` (R166, R168). -/
def DecOk (d : Dec) : Prop :=
  match d.st with
  | .idle => d.acc = 0 ∧ d.pos = 0
  | .run => d.pos.toNat ≤ 4 ∧ d.acc.toNat < 2 ^ (7 * d.pos.toNat)

/-- A response ENC can give: `Ok`, or its one error (R143). -/
def EncRspOk (r : EncResult) : Prop := r = .ok ∨ r = .err .sinkWriteError

/-- A response DEC can give: a value of `VALID` (R173), or one of its two errors (R178). -/
def DecRspOk : DecResult → Prop
  | .ok v => valid v
  | .err e => e = .sourceReadError ∨ e = .malformedEncoding

/-- The invariant of CORE. -/
def CoreInv (s : State) : Prop :=
  EncOk s.enc ∧ DecOk s.dec ∧ (∀ r ∈ s.encRsps, EncRspOk r) ∧ (∀ r ∈ s.decRsps, DecRspOk r)

/-- An ENCODE of `v` is in progress, its sink held `c` when it began, and `p` chunks are written (R134). -/
def EncProgress (v : Int) (c : List Byte) (p : Nat) (s : State) : Prop :=
  p < encLen (u64 v) ∧
    s.enc = { rem := u64 v >>> (7 * p), cnt := BitVec.ofNat 3 p, st := .run } ∧
    s.sink.content = c ++ (encBytes v).take p

/-- A DECODE is in progress, its source stood at position `c` when it began, and it has read the bytes `bs`, all
with bit 7 set (R171). -/
def DecProgress (c : Nat) (bs : List Byte) (s : State) : Prop :=
  bs.length ≤ 4 ∧ bs.all contBit = true ∧
    s.dec = { acc := BitVec.ofNat 64 (denoted bs), pos := BitVec.ofNat 3 bs.length, st := .run } ∧
    s.source.position = c + bs.length

/-- `k` steps of the machine, in the outcomes of `step`; the first stop ends them. -/
def runSteps : Nat → State → Host.Outcome State Fault Refusal
  | 0, s => .next s
  | k + 1, s =>
    match step s with
    | .next t => runSteps k t
    | .fault f => .fault f
    | .refused r => .refused r

/-- The host's next event is RESET, and it is the host's turn (R240). -/
def resetNow (s : State) : Prop := nextAgent s = .host ∧ s.inputs.head? = some .reset

end Sys2Proof.Safety
end

