-- ==== Sys2Proof/Certificates/Slice0/Obligations.lean ====
section
/-! DEFINITION. The statements for the provers. Each docstring names the rules of spec/ it formalises. A statement that
rests on a choice of the model names the log entry. That the environment is fields of State (log 1), that a turn is
taken from a schedule (log 2) and that responses stand in a list (log 12) is the form of every statement and is not
named again. `advance s` is the state with the turn used up. -/

open Sys2Proof Sys2Proof.Machine Sys2Proof.Safety

/-! ### Words -/

/-- Words written out in the spec decode to the instructions they stand for: the commands of 95_test_vectors 2.7, and
the two chunks `0xAC 0x02` of the worked examples of R130 and R160. -/
def Obligations.SpecWordsDecodeAsWritten : Prop :=
  decodeWord (.cmd 0x0000000000000012C) = .encode 300 ∧
  decodeWord (.cmd 0x0FFFFFFFFFFFFFFFF) = .encode (-1) ∧
  decodeWord (.cmd 0x08000000000000000) = .encode (-9223372036854775808) ∧
  decodeWord (.cmd 0x10000000000000000) = .decode ∧
  decodeWord (.cmd 0x1DEADBEEF00000001) = .decode ∧
  decodeWord (.chunk 0xAC) = .chunkCont 0x2C ∧
  decodeWord (.chunk 0x02) = .chunkLast 0x02

/-- Decode and encode agree, for every well-formed instruction and every operand (R82, R83, R95). -/
def Obligations.DecodeOfEncodeIsTheInstruction : Prop :=
  ∀ i : Instr, i.wf = true → decodeWord (encodeWord i) = i

/-- Every word decodes to a well-formed instruction, and encoding it again gives the word back; a DECODE word comes
back in its canonical spelling, since its value bits are ignored (R81, R95). -/
def Obligations.EncodeOfDecodeIsTheWord : Prop :=
  (∀ w, (decodeWord w).wf = true) ∧
  (∀ b, encodeWord (decodeWord (.chunk b)) = .chunk b) ∧
  (∀ w : CmdWord, w.toNat < 2 ^ 64 → encodeWord (decodeWord (.cmd w)) = .cmd w) ∧
  (∀ w : CmdWord, 2 ^ 64 ≤ w.toNat → encodeWord (decodeWord (.cmd w)) = .cmd 0x10000000000000000)

/-- What selects an instruction, by the match and mask of each row, and what its operand is, in arithmetic (R82,
R83, R95, R97). -/
def Obligations.WordsSelectedByMatchAndMask : Prop :=
  (∀ w : CmdWord, w &&& 0x10000000000000000 = 0x10000000000000000 → decodeWord (.cmd w) = .decode) ∧
  (∀ w : CmdWord, w &&& 0x10000000000000000 = 0x00000000000000000 →
    decodeWord (.cmd w) = .encode (if w.toNat < 2 ^ 63 then (w.toNat : Int) else (w.toNat : Int) - 2 ^ 64)) ∧
  (∀ b : Byte, b &&& 0x80 = 0x80 → decodeWord (.chunk b) = .chunkCont (BitVec.ofNat 7 (b.toNat - 128))) ∧
  (∀ b : Byte, b &&& 0x80 = 0x00 → decodeWord (.chunk b) = .chunkLast (BitVec.ofNat 7 b.toNat))

/-- The response word: the status codes, the layout, whatever the absent value bits are; the host reads back the
response; a reserved status is a fault on the host's side (R96, R201, R118, U7, U8; log 23). -/
def Obligations.ResponseWordLayoutAndReading : Prop :=
  (errorCode .sinkWriteError).toNat = 1 ∧ (errorCode .sourceReadError).toNat = 2 ∧
  (errorCode .malformedEncoding).toNat = 3 ∧ (errorCode .reinterpretationError).toNat = 4 ∧
  (∀ absent, (encodeRsp absent (.enc .ok)).toNat / 2 ^ 64 = 0) ∧
  (∀ absent e, (encodeRsp absent (.enc (.err e))).toNat / 2 ^ 64 = (errorCode e).toNat) ∧
  (∀ absent v, (encodeRsp absent (.dec (.ok v))).toNat = 8 * 2 ^ 64 + (u64 v).toNat) ∧
  (∀ absent e, (encodeRsp absent (.dec (.err e))).toNat / 2 ^ 64 = 8 + (errorCode e).toNat) ∧
  (∀ absent r, r.wf = true → hostReadRsp (encodeRsp absent r) = .next r) ∧
  (∀ w : RspWord, 5 ≤ w.toNat / 2 ^ 64 % 8 →
    hostReadRsp w = .fault (.reservedStatus (BitVec.ofNat 3 (w.toNat / 2 ^ 64))))

/-- The two reinterpretations and their values (R6). -/
def Obligations.ReinterpretationsAreInverseBijections : Prop :=
  (∀ v : Int, ((u64 v).toNat : Int) = v % 2 ^ 64) ∧
  (∀ v : Int, inValueRange v = true → ((u64 v).toNat : Int) = if 0 ≤ v then v else v + 2 ^ 64) ∧
  (∀ u : Pattern, s64 u = if u.toNat < 2 ^ 63 then (u.toNat : Int) else (u.toNat : Int) - 2 ^ 64) ∧
  (∀ u : Pattern, inValueRange (s64 u) = true) ∧
  (∀ v : Int, inValueRange v = true → s64 (u64 v) = v) ∧
  (∀ u : Pattern, u64 (s64 u) = u)

/-- `VALID` is the set of the 64-bit values whose pattern is below `2^35`; a negative value has a pattern of `2^63`
or more (R7). -/
def Obligations.ValidIsPatternBelow35Bits : Prop :=
  ∀ v : Int, inValueRange v = true →
    (valid v ↔ (u64 v).toNat < 2 ^ 35) ∧ (v < 0 → 2 ^ 63 ≤ (u64 v).toNat ∧ ¬ valid v)

/-! ### Commands -/

/-- ENC-ACCEPT: every `v` is accepted by an idle ENC, and nothing else changes (R131). -/
def Obligations.EncodeAcceptedByIdleEnc : Prop :=
  ∀ (v : Int) (s : State), s.enc.st = .idle →
    exec (.encode v) s = .next { s with enc := { rem := u64 v, cnt := 0, st := .run } }

/-- Acceptance of the first ENCODE offered: the value field of its word goes to `ENC.rem`, the offer is consumed, no
stream is accessed (R114; that it is the first of several offers and that the others keep their order is log 11). -/
def Obligations.EncodeOfferConsumedOnAcceptance : Prop :=
  ∀ (s : State) (pre post : List CmdWord) (w : CmdWord), nextAgent s = .enc → s.enc.st = .idle →
    s.offers = pre ++ w :: post → (∀ x ∈ pre, 2 ^ 64 ≤ x.toNat) → w.toNat < 2 ^ 64 →
    step s = .next { advance s with
      enc := { rem := BitVec.ofNat 64 w.toNat, cnt := 0, st := .run }, offers := pre ++ post }

/-- DEC-ACCEPT: accepted by an idle DEC, and nothing else changes (R161). -/
def Obligations.DecodeAcceptedByIdleDec : Prop :=
  ∀ s : State, s.dec.st = .idle →
    exec .decode s = .next { s with dec := { acc := 0, pos := 0, st := .run } }

/-- Acceptance of the first DECODE offered, whatever its value field: the offer is consumed, no stream is accessed
(R115; that it is the first of several offers and that the others keep their order is log 11). -/
def Obligations.DecodeOfferConsumedOnAcceptance : Prop :=
  ∀ (s : State) (pre post : List CmdWord) (w : CmdWord), nextAgent s = .dec → s.dec.st = .idle →
    s.offers = pre ++ w :: post → (∀ x ∈ pre, x.toNat < 2 ^ 64) → 2 ^ 64 ≤ w.toNat →
    step s = .next { advance s with dec := { acc := 0, pos := 0, st := .run }, offers := pre ++ post }

/-- A command offered to a running unit stays in the host's hand, and nothing else changes; a turn of a running unit
takes no offer (R116; the hand as a list, with the held command in front, is log 11, its canonical spelling log 22, and
an ill-formed value is held modulo `2^64` by log 20). -/
def Obligations.RunningUnitHoldsTheCommand : Prop :=
  (∀ (v : Int) (s : State), s.enc.st = .run →
    exec (.encode v) s = .next { s with offers := cmdWord false (u64 v) :: s.offers }) ∧
  (∀ s : State, s.dec.st = .run →
    exec .decode s = .next { s with offers := cmdWord true 0 :: s.offers }) ∧
  (∀ s t : State, nextAgent s = .enc → s.enc.st = .run → step s = .next t → t.offers = s.offers) ∧
  (∀ s t : State, nextAgent s = .dec → s.dec.st = .run → step s = .next t → t.offers = s.offers)

/-- The frame of the commands: CORE's other unit, both streams, the responses and the host's events are unchanged;
the offers too, but for the command held (R112, R113, R116, R131, R161; that the held command stands in front is log
11, its canonical spelling log 22, and an ill-formed value is held modulo `2^64` by log 20). -/
def Obligations.CommandFrames : Prop :=
  (∀ (v : Int) (s t : State), exec (.encode v) s = .next t →
    t.dec = s.dec ∧ t.sink = s.sink ∧ t.source = s.source ∧ t.inputs = s.inputs ∧ t.encRsps = s.encRsps ∧
    t.decRsps = s.decRsps ∧ t.sched = s.sched ∧ t.draws = s.draws ∧
    (s.enc.st = .idle → t.offers = s.offers) ∧
    (s.enc.st = .run → t.enc = s.enc ∧ t.offers = cmdWord false (u64 v) :: s.offers)) ∧
  (∀ s t : State, exec .decode s = .next t →
    t.enc = s.enc ∧ t.sink = s.sink ∧ t.source = s.source ∧ t.inputs = s.inputs ∧ t.encRsps = s.encRsps ∧
    t.decRsps = s.decRsps ∧ t.sched = s.sched ∧ t.draws = s.draws ∧
    (s.dec.st = .idle → t.offers = s.offers) ∧
    (s.dec.st = .run → t.dec = s.dec ∧ t.offers = cmdWord true 0 :: s.offers))

/-! ### ENC's chunk steps -/

/-- ENC-CHUNK in arithmetic: the byte, the three ends of the step, and nothing else changed. `left` is what
`SINK_FAIL_EFFECT` says of the failed write (R132, R135, R136; log 3; at the positions 5 to 7, which no run holds, log
10). -/
def Obligations.EncChunkStep : Prop :=
  ∀ s : State, nextAgent s = .enc → s.enc.st = .run →
    let u := s.enc.rem.toNat
    let b : Byte := BitVec.ofNat 8 ((if u / 128 = 0 then 0 else 128) + u % 128)
    ((advance s).sinkAnswer = .ok → u / 128 = 0 ∨ s.enc.cnt = 4 →
      step s = .next { advance s with
        enc := { rem := 0, cnt := 0, st := .idle }
        sink := { s.sink with content := s.sink.content ++ [b], answers := s.sink.answers.tail }
        encRsps := s.encRsps ++ [.ok] }) ∧
    ((advance s).sinkAnswer = .ok → u / 128 ≠ 0 → s.enc.cnt ≠ 4 →
      step s = .next { advance s with
        enc := { rem := BitVec.ofNat 64 (u / 128), cnt := s.enc.cnt + 1, st := .run }
        sink := { s.sink with content := s.sink.content ++ [b], answers := s.sink.answers.tail } }) ∧
    (∀ left, (advance s).sinkAnswer = .fail left →
      step s = .next { advance s with
        enc := { rem := 0, cnt := 0, st := .idle }
        sink := { s.sink with content := s.sink.content ++ left, answers := s.sink.answers.tail }
        encRsps := s.encRsps ++ [.err .sinkWriteError] })

/-- ENCODE, the whole operation on a sink that accepts its writes: ENC-ACCEPT and then `n(u64 v)` chunk steps write
`enc_bytes(v)` after what the sink held, respond `Ok`, and change nothing else (R130, R134, R117; the scripted answers
are log 3). -/
def Obligations.EncodeWritesItsBytesAndResponds : Prop :=
  ∀ (v : Int) (s : State) (later : List SinkAnswer) (turns : List Agent), s.enc.st = .idle →
    s.sink.answers = List.replicate (encLen (u64 v)) .ok ++ later →
    s.sched = List.replicate (encLen (u64 v)) .enc ++ turns →
    ∃ t, exec (.encode v) s = .next t ∧
      runSteps (encLen (u64 v)) t = .next { s with
        enc := { rem := 0, cnt := 0, st := .idle }
        sink := { s.sink with content := s.sink.content ++ encBytes v, answers := later }
        encRsps := s.encRsps ++ [.ok]
        sched := turns
        draws := s.draws + encLen (u64 v) }

/-- ENCODE, the whole operation on a sink that fails the `(k+1)`-th write: exactly the first `k` bytes are accepted,
the response is `Err(SinkWriteError)`, ENC is idle and cleared, nothing else changes (R135, R54, R55, R211; `left` by
log 3). -/
def Obligations.EncodeEndsAtTheFailedWrite : Prop :=
  ∀ (v : Int) (k : Nat) (s : State) (left : List Byte) (later : List SinkAnswer) (turns : List Agent),
    s.enc.st = .idle → k < encLen (u64 v) →
    s.sink.answers = List.replicate k .ok ++ .fail left :: later →
    s.sched = List.replicate (k + 1) .enc ++ turns →
    ∃ t, exec (.encode v) s = .next t ∧
      runSteps (k + 1) t = .next { s with
        enc := { rem := 0, cnt := 0, st := .idle }
        sink := { s.sink with content := s.sink.content ++ (encBytes v).take k ++ left, answers := later }
        encRsps := s.encRsps ++ [.err .sinkWriteError]
        sched := turns
        draws := s.draws + (k + 1) }

/-- An ENCODE in progress under every schedule: a turn of ENC writes the next byte of `enc_bytes(v)` and goes on, or
writes the last one and responds `Ok`, or ends at a failed write; any other turn leaves it where it is, but for RESET,
which abandons it without a response and leaves the sink as it is (R132, R134, R135, R54, R66, R68, R242; the bytes
`left` that a failed write leaves are log 3's form of `SINK_FAIL_EFFECT`). -/
def Obligations.EncodeProgressUnderEverySchedule : Prop :=
  ∀ (v : Int) (c : List Byte) (p : Nat) (s t : State), EncProgress v c p s → step s = .next t →
    (nextAgent s = .enc → (advance s).sinkAnswer = .ok → p + 1 < encLen (u64 v) →
      EncProgress v c (p + 1) t ∧ t.encRsps = s.encRsps) ∧
    (nextAgent s = .enc → (advance s).sinkAnswer = .ok → p + 1 = encLen (u64 v) →
      t.enc = Enc.cleared ∧ t.sink.content = c ++ encBytes v ∧ t.encRsps = s.encRsps ++ [.ok]) ∧
    (∀ left, nextAgent s = .enc → (advance s).sinkAnswer = .fail left →
      t.enc = Enc.cleared ∧ t.sink.content = c ++ (encBytes v).take p ++ left ∧
      t.encRsps = s.encRsps ++ [.err .sinkWriteError]) ∧
    (nextAgent s ≠ .enc → ¬ resetNow s → EncProgress v c p t ∧ ∃ l, s.encRsps = l ++ t.encRsps) ∧
    (resetNow s → t.enc = Enc.cleared ∧ t.sink = s.sink ∧ t.encRsps = s.encRsps)

/-- Bit `i` of the data field at position `p` is bit `7p + i` of the pattern, and the flag says whether a higher bit
is set (R61, R87). -/
def Obligations.ChunkBitsArePatternBits : Prop :=
  ∀ (u : Pattern) (p : Nat), p < encLen u →
    (∀ i, i < 7 → (encByte u p).getLsbD i = u.getLsbD (7 * p + i)) ∧
    (contBit (encByte u p) = true ↔ ∃ j, 7 * (p + 1) ≤ j ∧ u.getLsbD j = true)

/-- The length of `enc_bytes(v)` by ranges of the pattern, its form by significant bits, and the form of the last
byte (R137). -/
def Obligations.EncodedLengthByRange : Prop :=
  ∀ v : Int, inValueRange v = true →
    let u := (u64 v).toNat
    (u < 2 ^ 7 → (encBytes v).length = 1) ∧
    (2 ^ 7 ≤ u → u < 2 ^ 14 → (encBytes v).length = 2) ∧
    (2 ^ 14 ≤ u → u < 2 ^ 21 → (encBytes v).length = 3) ∧
    (2 ^ 21 ≤ u → u < 2 ^ 28 → (encBytes v).length = 4) ∧
    (2 ^ 28 ≤ u → (encBytes v).length = 5) ∧
    (valid v → (encBytes v).length = max 1 ((Nat.size u + 6) / 7)) ∧
    (∀ b, (encBytes v).getLast? = some b → (contBit b = true ↔ 2 ^ 35 ≤ u))

/-- On `VALID` the bytes written are a well-formed encoding; outside it each of the five bytes has bit 7 set
(R138). -/
def Obligations.EncodedBytesContinueCorrectly : Prop :=
  ∀ v : Int, inValueRange v = true →
    (valid v → wellFormedEncoding (encBytes v) = true) ∧
    (¬ valid v → (encBytes v).length = 5 ∧ ∀ b ∈ encBytes v, contBit b = true)

/-- On `VALID` the bytes written are the minimal encoding of `v`, and end in `0x00` only for 0 (R139, R92). -/
def Obligations.EncodedBytesAreMinimal : Prop :=
  ∀ v : Int, valid v →
    minimalEncoding (encBytes v) ∧ (denoted (encBytes v) : Int) = v ∧
    ((encBytes v).getLast? = some 0x00 → v = 0) ∧ (v = 0 → encBytes v = [0x00])

/-- Outside `VALID` the five bytes are `0x80 | u[7p+6:7p]`, so values with the same low 35 bits get the same bytes
(R141). -/
def Obligations.EncodeOutsideValid : Prop :=
  ∀ v : Int, inValueRange v = true → ¬ valid v →
    encBytes v = (List.range 5).map
      (fun p => BitVec.ofNat 8 (128 + (u64 v).toNat / 2 ^ (7 * p) % 128)) ∧
    (∀ w : Int, inValueRange w = true → ¬ valid w →
      (u64 v).toNat % 2 ^ 35 = (u64 w).toNat % 2 ^ 35 → encBytes v = encBytes w)

/-- `enc_bytes` is injective on `VALID` and not on all 64-bit values (R142). -/
def Obligations.EncodeInjectiveOnValidOnly : Prop :=
  (∀ v w : Int, valid v → valid w → encBytes v = encBytes w → v = w) ∧
  (∃ v w : Int, inValueRange v = true ∧ inValueRange w = true ∧ v ≠ w ∧ encBytes v = encBytes w)

/-- The bound of an ENCODE: from the position `cnt`, a chunk step ends the operation or goes to the next position,
never beyond 4 (R133, R23). -/
def Obligations.EncodeBoundedByFiveChunks : Prop :=
  ∀ s t : State, EncOk s.enc → s.enc.st = .run → nextAgent s = .enc → step s = .next t →
    t.enc = Enc.cleared ∨
      (t.enc.st = .run ∧ t.enc.cnt.toNat = s.enc.cnt.toNat + 1 ∧ t.enc.cnt.toNat ≤ 4)

/-! ### DEC's chunk steps and the chunk forms -/

/-- CHUNK_CONT at every position a run holds, in arithmetic (R181). -/
def Obligations.ChunkContMeaning : Prop :=
  ∀ (d : Data) (s : State), s.dec.st = .run →
    (s.dec.pos.toNat ≤ 3 →
      exec (.chunkCont d) s = .next { s with dec := {
        acc := s.dec.acc ||| BitVec.ofNat 64 (d.toNat * 2 ^ (7 * s.dec.pos.toNat))
        pos := BitVec.ofNat 3 (s.dec.pos.toNat + 1)
        st := .run } }) ∧
    (s.dec.pos.toNat = 4 →
      exec (.chunkCont d) s = .next { s with
        dec := { acc := 0, pos := 0, st := .idle }
        decRsps := s.decRsps ++ [.err .malformedEncoding] })

/-- CHUNK_LAST at every position, in arithmetic (R182). -/
def Obligations.ChunkLastMeaning : Prop :=
  ∀ (d : Data) (s : State), s.dec.st = .run →
    exec (.chunkLast d) s = .next { s with
      dec := { acc := 0, pos := 0, st := .idle }
      decRsps := s.decRsps ++
        [.ok (s64 (s.dec.acc ||| BitVec.ofNat 64 (d.toNat * 2 ^ (7 * s.dec.pos.toNat))))] }

/-- A DEC in IDLE interprets no chunk: the form changes nothing (the model's reading of R162's enabling condition,
log 9). -/
def Obligations.IdleDecInterpretsNoChunk : Prop :=
  ∀ (d : Data) (s : State), s.dec.st = .idle →
    exec (.chunkCont d) s = .next s ∧ exec (.chunkLast d) s = .next s

/-- The frame of the chunk forms: all but DEC and its responses is unchanged; CHUNK_CONT responds only with its error,
and CHUNK_LAST, interpreted by a running DEC, always with a value (R181, R182, R179; on an idle DEC log 9, at the
positions 5 to 7 log 10). -/
def Obligations.ChunkFormFrames : Prop :=
  (∀ (d : Data) (s t : State), exec (.chunkCont d) s = .next t →
    t.enc = s.enc ∧ t.sink = s.sink ∧ t.source = s.source ∧ t.inputs = s.inputs ∧ t.offers = s.offers ∧
    t.encRsps = s.encRsps ∧ t.sched = s.sched ∧ t.draws = s.draws ∧
    (t.decRsps = s.decRsps ∨ t.decRsps = s.decRsps ++ [.err .malformedEncoding])) ∧
  (∀ (d : Data) (s t : State), exec (.chunkLast d) s = .next t →
    t.enc = s.enc ∧ t.sink = s.sink ∧ t.source = s.source ∧ t.inputs = s.inputs ∧ t.offers = s.offers ∧
    t.encRsps = s.encRsps ∧ t.sched = s.sched ∧ t.draws = s.draws ∧
    (s.dec.st = .run → ∃ v, t.decRsps = s.decRsps ++ [.ok v]))

/-- A step runs the decoded instruction: on its unit's turn, the first command offered to an idle unit, and the byte
the source supplies to a running DEC. Around it the step uses up the turn, and takes the offer from the host's hand or
consumes the byte (R97, R114, R115, R162; that it is the first of the unit's commands in the host's list, by
`takeOffer`, is log 11). -/
def Obligations.StepRunsTheDecodedInstruction : Prop :=
  (∀ (s : State) (w : CmdWord) (ws : List CmdWord), nextAgent s = .enc → s.enc.st = .idle →
    takeOffer (fun x => !opBit x) s.offers = some (w, ws) →
    step s = exec (decodeWord (.cmd w)) { advance s with offers := ws }) ∧
  (∀ (s : State) (w : CmdWord) (ws : List CmdWord), nextAgent s = .dec → s.dec.st = .idle →
    takeOffer opBit s.offers = some (w, ws) →
    step s = exec (decodeWord (.cmd w)) { advance s with offers := ws }) ∧
  (∀ (s : State) (b : Byte), nextAgent s = .dec → s.dec.st = .run → (advance s).sourceAnswer = .byte b →
    step s = exec (decodeWord (.chunk b)) { advance s with
      source := { s.source with position := s.source.position + 1, answers := s.source.answers.tail } })

/-- A read that the source fails, at any position: `Err(SourceReadError)`, DEC idle and cleared, the bytes read before
stay consumed. `m` is what `SRC_FAIL_EFFECT` says of the read (R164; log 4). -/
def Obligations.FailedReadRaisesSourceReadError : Prop :=
  ∀ (s : State) (m : Nat), nextAgent s = .dec → s.dec.st = .run → (advance s).sourceAnswer = .fail m →
    step s = .next { advance s with
      dec := { acc := 0, pos := 0, st := .idle }
      source := { s.source with position := s.source.position + m, answers := s.source.answers.tail }
      decRsps := s.decRsps ++ [.err .sourceReadError] }

/-- Every byte value is acceptable at every position but one with bit 7 set at position 4, which is
`MalformedEncoding` (R175, R165). -/
def Obligations.MalformedOnlyOnContinuingFifthByte : Prop :=
  ∀ (b : Byte) (s : State), s.dec.st = .run → s.dec.pos.toNat ≤ 4 →
    ∃ t, exec (decodeWord (.chunk b)) s = .next t ∧
      (t.decRsps = s.decRsps ++ [.err .malformedEncoding] ↔ s.dec.pos.toNat = 4 ∧ 128 ≤ b.toNat) ∧
      (t.decRsps = s.decRsps ↔ s.dec.pos.toNat < 4 ∧ 128 ≤ b.toNat) ∧
      ((∃ v, t.decRsps = s.decRsps ++ [.ok v]) ↔ b.toNat < 128)

/-- The fold sets bits `7p + 6 : 7p` to the data and changes nothing else: on an accumulator below `2^(7p)`, OR is
add, and no set bit is shifted out (R166, R168). -/
def Obligations.FoldInsertsTheGroup : Prop :=
  ∀ (acc : Pattern) (pos : Pos) (d : Data), pos.toNat ≤ 4 → acc.toNat < 2 ^ (7 * pos.toNat) →
    (fold acc pos d).toNat = acc.toNat + d.toNat * 2 ^ (7 * pos.toNat) ∧
    (fold acc pos d).toNat < 2 ^ (7 * (pos.toNat + 1)) ∧
    (∀ i, i < 7 → (fold acc pos d).getLsbD (7 * pos.toNat + i) = d.getLsbD i) ∧
    (∀ j, j < 7 * pos.toNat ∨ 7 * pos.toNat + 7 ≤ j → (fold acc pos d).getLsbD j = acc.getLsbD j)

/-- DECODE, the whole operation: DEC-ACCEPT and then one chunk step for each read give the response of `dec`, move the
source by what `dec` consumes (and by what a failing read moves it, log 4), and change nothing else (R160, R171,
R167). The source's answers are the script, which covers every read, or a script after which the stream ends. -/
def Obligations.DecodeRespondsWithDec : Prop :=
  ∀ (s : State) (script : List SourceAnswer) (turns : List Agent), s.dec.st = .idle →
    s.source.answers = script →
    let a : Nat → SourceAnswer := fun k => script.getD k (.fail 0)
    let n := decReads a
    n ≤ script.length ∨ s.source.rest = .ends →
    let extra := match a (n - 1) with
      | .fail m => m
      | .byte _ => 0
    s.sched = List.replicate n .dec ++ turns →
    ∃ t, exec .decode s = .next t ∧
      runSteps n t = .next { s with
        dec := { acc := 0, pos := 0, st := .idle }
        source := { s.source with
          position := s.source.position + (decOutcome a).2 + extra, answers := script.drop n }
        decRsps := s.decRsps ++ [(decOutcome a).1]
        sched := turns
        draws := s.draws + n }

/-- A DECODE in progress under every schedule: a turn of DEC reads one byte and goes on, or responds with the value of
the bytes read, or raises `MalformedEncoding` at the 5th byte or `SourceReadError` at a failed read; any other turn
leaves it where it is, but for RESET, which abandons it without a response and leaves the source as it is (R162 to
R165, R171, R57, R68, R242; that a failed read moves the position by `m` is log 4's form of `SRC_FAIL_EFFECT`). -/
def Obligations.DecodeProgressUnderEverySchedule : Prop :=
  ∀ (c : Nat) (bs : List Byte) (s t : State), DecProgress c bs s → step s = .next t →
    (∀ b, nextAgent s = .dec → (advance s).sourceAnswer = .byte b → 128 ≤ b.toNat → bs.length < 4 →
      DecProgress c (bs ++ [b]) t ∧ t.decRsps = s.decRsps) ∧
    (∀ b, nextAgent s = .dec → (advance s).sourceAnswer = .byte b → 128 ≤ b.toNat → bs.length = 4 →
      t.dec = Dec.cleared ∧ t.source.position = c + 5 ∧ t.decRsps = s.decRsps ++ [.err .malformedEncoding]) ∧
    (∀ b, nextAgent s = .dec → (advance s).sourceAnswer = .byte b → b.toNat < 128 →
      t.dec = Dec.cleared ∧ t.source.position = c + bs.length + 1 ∧
      t.decRsps = s.decRsps ++ [.ok (denoted (bs ++ [b]))]) ∧
    (∀ m, nextAgent s = .dec → (advance s).sourceAnswer = .fail m →
      t.dec = Dec.cleared ∧ t.source.position = c + bs.length + m ∧
      t.decRsps = s.decRsps ++ [.err .sourceReadError]) ∧
    (nextAgent s ≠ .dec → ¬ resetNow s → DecProgress c bs t ∧ ∃ l, s.decRsps = l ++ t.decRsps) ∧
    (resetNow s → t.dec = Dec.cleared ∧ t.source = s.source ∧ t.decRsps = s.decRsps)

/-- What a DECODE consumes, by outcome, and its errors: it reads up to the first byte with bit 7 clear and no further
(R59, R172, R178). -/
def Obligations.DecodeConsumesByOutcome : Prop :=
  ∀ a : Nat → SourceAnswer,
    (∀ v n, decOutcome a = (.ok v, n) → 1 ≤ n ∧ n ≤ 5 ∧
      (∀ k, k + 1 < n → ∃ b : Byte, a k = .byte b ∧ 128 ≤ b.toNat) ∧
      (∃ b : Byte, a (n - 1) = .byte b ∧ b.toNat < 128)) ∧
    (∀ e n, decOutcome a = (.err e, n) →
      (∀ k, k < n → ∃ b : Byte, a k = .byte b ∧ 128 ≤ b.toNat) ∧
      ((e = .malformedEncoding ∧ n = 5) ∨ (e = .sourceReadError ∧ n ≤ 4 ∧ ∃ m, a n = .fail m)))

/-- Every value DEC returns is in `VALID`, by the closed form and by the machine (R173). -/
def Obligations.DecodedValueIsInValid : Prop :=
  (∀ (a : Nat → SourceAnswer) (v : Int) (n : Nat), decOutcome a = (.ok v, n) → valid v ∧ v ≠ -1) ∧
  (∀ (s t : State) (v : Int), CoreInv s → step s = .next t → .ok v ∈ t.decRsps → valid v ∧ v ≠ -1)

/-- Every well-formed encoding, minimal or not, is accepted, whatever follows it, and yields the value it denotes;
its bytes are consumed and no more (R174, R86, R94). -/
def Obligations.EveryWellFormedEncodingDecodes : Prop :=
  ∀ (bs : List Byte) (a : Nat → SourceAnswer), wellFormedEncoding bs = true →
    (∀ p, p < bs.length → a p = .byte (bs.getD p 0)) →
    decOutcome a = (.ok (denoted bs), bs.length)

/-- The value a well-formed encoding denotes: below `2^35`, so never negative, and its bit `7p + i` is bit `i` of the
byte at position `p` (R86, R60, R61). -/
def Obligations.DenotedValueOfWellFormed : Prop :=
  ∀ bs : List Byte, wellFormedEncoding bs = true →
    denoted bs < 2 ^ 35 ∧ s64 (BitVec.ofNat 64 (denoted bs)) = denoted bs ∧ valid (denoted bs) ∧
    (∀ p i, p < bs.length → i < 7 → (denoted bs).testBit (7 * p + i) = (bs.getD p 0).getLsbD i) ∧
    (∀ j, 7 * bs.length ≤ j → (denoted bs).testBit j = false)

/-- No well-formed encoding is a proper beginning of another (R84). -/
def Obligations.WellFormedEncodingsArePrefixFree : Prop :=
  ∀ as bs : List Byte, wellFormedEncoding as = true → wellFormedEncoding bs = true →
    (∃ cs, bs = as ++ cs) → as = bs

/-! ### Encode against decode -/

/-- Round trip on `VALID`: a DECODE whose source supplies `enc_bytes(v)` responds `Ok(v)` and consumes exactly those
bytes (R140). -/
def Obligations.RoundTripOnValid : Prop :=
  ∀ (v : Int) (a : Nat → SourceAnswer), valid v →
    (∀ p, p < (encBytes v).length → a p = .byte ((encBytes v).getD p 0)) →
    decOutcome a = (.ok v, (encBytes v).length)

/-- Outside `VALID` what ENCODE writes is rejected: `MalformedEncoding`, 5 bytes consumed (R177 b, R141). -/
def Obligations.EncodedOutsideValidIsRejected : Prop :=
  ∀ (v : Int) (a : Nat → SourceAnswer), inValueRange v = true → ¬ valid v →
    (∀ p, p < 5 → a p = .byte ((encBytes v).getD p 0)) →
    decOutcome a = (.err .malformedEncoding, 5)

/-- Encoding again what a well-formed encoding denotes gives it back if and only if it is minimal, and is shorter
otherwise (R177 c, R250). -/
def Obligations.ReencodingGivesBackMinimalOnly : Prop :=
  ∀ e : List Byte, wellFormedEncoding e = true →
    (encBytes (denoted e) = e ↔ minimalEncoding e) ∧
    (¬ minimalEncoding e → (encBytes (denoted e)).length < e.length)

/-- The round trip of the machine itself, through the reference loopback: ENC writes `v`, DEC reads what the sink
accepted and responds `Ok(v)`, and both units end as they began (R140, R55, D19, log 5; the two commands are offered
together, R98; that a unit takes its own command out of the list is log 11). -/
def Obligations.MachineRoundTripThroughLoopback : Prop :=
  ∀ (v : Int) (ignored : Pattern) (s : State) (turns : List Agent), valid v →
    s.enc.st = .idle → s.dec.st = .idle → s.offers = [cmdWord false (u64 v), cmdWord true ignored] →
    s.sink.answers = [] → s.sink.rest = .accepts →
    s.source.answers = [] → s.source.rest = .loopback → s.source.position = s.sink.content.length →
    let n := encLen (u64 v)
    s.sched = List.replicate (n + 1) .enc ++ List.replicate (n + 1) .dec ++ turns →
    runSteps (2 * n + 2) s = .next { s with
      enc := { rem := 0, cnt := 0, st := .idle }
      dec := { acc := 0, pos := 0, st := .idle }
      offers := []
      sink := { s.sink with content := s.sink.content ++ encBytes v }
      source := { s.source with position := s.source.position + n }
      encRsps := s.encRsps ++ [.ok]
      decRsps := s.decRsps ++ [.ok v]
      sched := turns
      draws := s.draws + (2 * n + 2) }

/-! ### The whole machine -/

/-- The invariant of CORE is kept by every step: positions 0 to 4, no stray bit in a register, cleared in IDLE, and
only the responses each unit can give (R23, R24, R35, R143, R168, R173, R178). -/
def Obligations.InvariantKeptByEveryStep : Prop :=
  ∀ s t : State, CoreInv s → step s = .next t → CoreInv t

/-- The invariant holds at reset (R37). -/
def Obligations.InvariantHoldsAtReset : Prop := CoreInv State.reset

/-- CORE after reset (R37; the environment's reset values are the model's choice, log 18, and not stated here). -/
def Obligations.CoreAfterReset : Prop :=
  State.reset.enc = { rem := 0, cnt := 0, st := .idle } ∧
  State.reset.dec = { acc := 0, pos := 0, st := .idle } ∧
  State.reset.maxSize = 5

/-- RESET at any time: both units idle with registers 0, `MAX_SIZE` 5, either command accepted after it; no response
is emitted, the streams and the offers are untouched (R241, R242). -/
def Obligations.ResetEventClearsCore : Prop :=
  ∀ (s : State) (later : List HostEvent), nextAgent s = .host → s.inputs = .reset :: later →
    step s = .next { advance s with
      enc := { rem := 0, cnt := 0, st := .idle }
      dec := { acc := 0, pos := 0, st := .idle }
      inputs := later } ∧
    ∀ t, step s = .next t → t.maxSize = 5 ∧
      (∀ v, exec (.encode v) t = .next { t with enc := { rem := u64 v, cnt := 0, st := .run } }) ∧
      exec .decode t = .next { t with dec := { acc := 0, pos := 0, st := .run } }

/-- `MAX_SIZE` is 5 in every state, and no step changes it (R28). -/
def Obligations.MaxSizeIsHardwired : Prop :=
  ∀ s : State, s.maxSize = 0b101 ∧ ∀ t, step s = .next t → t.maxSize = s.maxSize

/-- A turn of one unit leaves the other unit, its stream and its responses as they are (R68, R209, R65). -/
def Obligations.UnitTurnsLeaveTheOtherUnit : Prop :=
  (∀ s t : State, nextAgent s = .enc → step s = .next t →
    t.dec = s.dec ∧ t.source = s.source ∧ t.decRsps = s.decRsps ∧ t.inputs = s.inputs) ∧
  (∀ s t : State, nextAgent s = .dec → step s = .next t →
    t.enc = s.enc ∧ t.sink = s.sink ∧ t.encRsps = s.encRsps ∧ t.inputs = s.inputs)

/-- The units' steps may interleave in any order: a turn of each, in either order, ends in the same state, whatever the
units do on it. The premises rule out only what is not CORE's: an access answered by a free draw, which is drawn by the
place of the turn in the run (logs 3, 4, 6), and a loopback read that has caught up with the sink while ENC writes
(log 5), so that the source depends on the sink (R68, D17). -/
def Obligations.UnitTurnsCommute : Prop :=
  ∀ (s : State) (turns : List Agent), 
    s.enc.st = .idle ∨ s.sink.answers ≠ [] ∨ s.sink.rest = .accepts →
    s.dec.st = .idle ∨ s.source.answers ≠ [] ∨ s.source.rest = .ends ∨
      (s.source.rest = .loopback ∧ (s.enc.st = .idle ∨ s.source.position < s.sink.content.length)) →
    ∃ t, runSteps 2 { s with sched := .enc :: .dec :: turns } = .next t ∧
      runSteps 2 { s with sched := .dec :: .enc :: turns } = .next t

/-- No step faults, and a unit's turn is never refused: only a host that breaks a duty is, by name (R200, R51, R73,
U6, U12; log 14). -/
def Obligations.OnlyABrokenDutyStops : Prop :=
  (∀ (s : State) (f : Fault), step s ≠ .fault f) ∧
  (∀ (s : State) (r : Refusal), step s = .refused r → nextAgent s = .host ∧
    ((r = .attachmentChanged ∧ s.enc.st = .run ∧ ∃ k es, s.inputs = .attachSink k :: es) ∨
     (r = .attachmentChanged ∧ s.dec.st = .run ∧ ∃ c es, s.inputs = .attachSource c :: es) ∨
     (r = .ownershipViolated ∧ s.enc.st = .run ∧ ∃ b es, s.inputs = .foreignWrite b :: es) ∨
     (r = .ownershipViolated ∧ s.dec.st = .run ∧ ∃ es, s.inputs = .foreignRead :: es)))

/-- No instruction stops in any state: `exec` always answers a next state (R95, R122, R175, R200). Where the rules leave
the instruction no step, the next state is the model's: a chunk form on an idle DEC changes nothing (log 9), at the
positions 5 to 7 it follows the rules' own test (log 10), a command to a running unit stays in the host's list (log 11,
and log 22 for its spelling), and an ill-formed value counts modulo `2^64` (log 20). -/
def Obligations.EveryInstructionAnswersNext : Prop :=
  ∀ (i : Instr) (s : State), ∃ t, exec i s = .next t

/-- One response per operation, in the step that ends it: on a turn of ENC its responses grow by one if and only if
the turn takes it from RUN to IDLE, and so for DEC (R117, R119, R210). -/
def Obligations.OneResponseWhenAnOperationEnds : Prop :=
  (∀ s t : State, nextAgent s = .enc → step s = .next t →
    ((s.enc.st = .run ∧ t.enc.st = .idle) → t.enc = Enc.cleared ∧ ∃ r, t.encRsps = s.encRsps ++ [r]) ∧
    (¬ (s.enc.st = .run ∧ t.enc.st = .idle) → t.encRsps = s.encRsps)) ∧
  (∀ s t : State, nextAgent s = .dec → step s = .next t →
    ((s.dec.st = .run ∧ t.dec.st = .idle) → t.dec = Dec.cleared ∧ ∃ r, t.decRsps = s.decRsps ++ [r]) ∧
    (¬ (s.dec.st = .run ∧ t.dec.st = .idle) → t.decRsps = s.decRsps))

/-- `ReinterpretationError` is never raised, from any state: no step adds a response that carries it (R170, R205,
U2). -/
def Obligations.ReinterpretationErrorIsNeverRaised : Prop :=
  ∀ s t : State, step s = .next t →
    (EncResult.err .reinterpretationError ∈ t.encRsps → EncResult.err .reinterpretationError ∈ s.encRsps) ∧
    (DecResult.err .reinterpretationError ∈ t.decRsps → DecResult.err .reinterpretationError ∈ s.decRsps)

/-- The sink only grows, by one byte where a write of ENC is accepted, and the source's position never falls, and rises
by one where a byte is supplied to DEC; the host's own acts of attaching a stream are set apart (R53, R54, R56, R59,
R63). How a stream answers another agent's access is log 28. What a failed write leaves is log 3. That a failed read does
not move the position back is log 4, which is unsafe: R57 and U4 leave it open, and the never-falls clause is false of a
source that moves back. -/
def Obligations.StreamsOnlyAdvance : Prop :=
  (∀ s t : State, step s = .next t → (∀ k es, s.inputs ≠ .attachSink k :: es) →
    ∃ l, t.sink.content = s.sink.content ++ l) ∧
  (∀ s t : State, nextAgent s = .enc → s.enc.st = .run → (advance s).sinkAnswer = .ok → step s = .next t →
    t.sink.content.length = s.sink.content.length + 1) ∧
  (∀ s t : State, step s = .next t → (∀ c es, s.inputs ≠ .attachSource c :: es) →
    s.source.position ≤ t.source.position) ∧
  (∀ (s t : State) (b : Byte), nextAgent s = .dec → s.dec.st = .run → (advance s).sourceAnswer = .byte b →
    step s = .next t → t.source.position = s.source.position + 1)

/-- An idle unit with no command offered to it has no enabled step: its turn changes nothing (R221; a turn without a
step is the model's, log 8). -/
def Obligations.IdleUnitWithoutOfferDoesNothing : Prop :=
  (∀ s : State, nextAgent s = .enc → s.enc.st = .idle → (∀ w ∈ s.offers, 2 ^ 64 ≤ w.toNat) →
    step s = .next (advance s)) ∧
  (∀ s : State, nextAgent s = .dec → s.dec.st = .idle → (∀ w ∈ s.offers, w.toNat < 2 ^ 64) →
    step s = .next (advance s))

/-- A stream is attached between operations only: on the host's turn an attachment is made while its unit is idle, and
refused by name while it runs (R51, R74, U12; log 14; a sink is replaced also while DEC reads through a loopback, by log
27). -/
def Obligations.StreamsAttachedBetweenOperationsOnly : Prop :=
  (∀ (s : State) (k : Sink) (es : List HostEvent), nextAgent s = .host → s.inputs = .attachSink k :: es →
    (s.enc.st = .idle → step s = .next { advance s with inputs := es, sink := k }) ∧
    (s.enc.st = .run → step s = .refused .attachmentChanged)) ∧
  (∀ (s : State) (c : Source) (es : List HostEvent), nextAgent s = .host → s.inputs = .attachSource c :: es →
    (s.dec.st = .idle → step s = .next { advance s with inputs := es, source := c }) ∧
    (s.dec.st = .run → step s = .refused .attachmentChanged))

/-- The host issues a command behind those it already offers, and takes the responses of a unit oldest first, each
unit's apart from the other's; it waits where there is none, and it can wait until none of its commands, or none of
one unit's, is outstanding (R9, R98, R120; the lists and the waiting are the model's, log 11, 12 and 13). -/
def Obligations.HostIssuesAndTakesInOrder : Prop :=
  (∀ (s : State) (w : CmdWord) (es : List HostEvent), nextAgent s = .host → s.inputs = .issue w :: es →
    step s = .next { advance s with inputs := es, offers := s.offers ++ [w] }) ∧
  (∀ (s : State) (es : List HostEvent), nextAgent s = .host → s.inputs = .takeEnc :: es →
    (∀ r rs, s.encRsps = r :: rs → step s = .next { advance s with inputs := es, encRsps := rs }) ∧
    (s.encRsps = [] → step s = .next (advance s))) ∧
  (∀ (s : State) (es : List HostEvent), nextAgent s = .host → s.inputs = .takeDec :: es →
    (∀ r rs, s.decRsps = r :: rs → step s = .next { advance s with inputs := es, decRsps := rs }) ∧
    (s.decRsps = [] → step s = .next (advance s))) ∧
  (∀ (s : State) (es : List HostEvent), nextAgent s = .host → s.inputs = .await :: es →
    (s.offers = [] → s.enc.st = .idle → s.dec.st = .idle → step s = .next { advance s with inputs := es }) ∧
    (s.offers ≠ [] ∨ s.enc.st = .run ∨ s.dec.st = .run → step s = .next (advance s))) ∧
  (∀ (s : State) (es : List HostEvent), nextAgent s = .host → s.inputs = .awaitEnc :: es →
    ((∀ w ∈ s.offers, 2 ^ 64 ≤ w.toNat) → s.enc.st = .idle →
      step s = .next { advance s with inputs := es }) ∧
    ((∃ w ∈ s.offers, w.toNat < 2 ^ 64) ∨ s.enc.st = .run → step s = .next (advance s))) ∧
  (∀ (s : State) (es : List HostEvent), nextAgent s = .host → s.inputs = .awaitDec :: es →
    ((∀ w ∈ s.offers, w.toNat < 2 ^ 64) → s.dec.st = .idle →
      step s = .next { advance s with inputs := es }) ∧
    ((∃ w ∈ s.offers, 2 ^ 64 ≤ w.toNat) ∨ s.dec.st = .run → step s = .next (advance s)))

/-- The lines of a program, one after the other. A command waits for the response of the one before it; the commands of
a `||` line are issued together; the line after a `||` line is issued as the schedule says, without a wait; a command
after a `||` line and a RESET waits for whatever is still outstanding. A RESET waits for nothing, so it also falls between
two steps of an operation, which it abandons. A line of the environment is no act at its place. The responses stay untaken
(R98, R120, R242; that these are events of the host is log 5, the list of offers log 11, the waits log 13). -/
def Obligations.ProgramLinesIssueInOrder : Prop :=
  (∀ v : Int, inValueRange v = true → (lineWords (.encode v)).map decodeCmd = [.encode v] ∧
    (lineWords .decode).map decodeCmd = [.decode] ∧ (lineWords (.both v)).map decodeCmd = [.encode v, .decode]) ∧
  (∀ (p : List ProgramLine) (b : Before) (v : Int),
    commandEvents b [] = [] ∧
    commandEvents b (.encode v :: p) = lineEvents b (.encode v) ++ commandEvents .enc p ∧
    commandEvents b (.decode :: p) = lineEvents b .decode ++ commandEvents .dec p ∧
    commandEvents b (.both v :: p) = lineEvents b (.both v) ++ commandEvents .both p ∧
    commandEvents .both (.reset :: p) = lineEvents .both .reset ++ commandEvents .bothThenReset p ∧
    (b ≠ .both → commandEvents b (.reset :: p) = lineEvents b .reset ++ commandEvents b p)) ∧
  (∀ (p : List ProgramLine) (b : Before) (bytes : List Byte) (k : Nat),
    commandEvents b (.source bytes :: p) = commandEvents b p ∧ commandEvents b (.loopback :: p) = commandEvents b p ∧
    commandEvents b (.sinkOk :: p) = commandEvents b p ∧ commandEvents b (.sinkFailAt k :: p) = commandEvents b p) ∧
  (∀ (s : State) (line : ProgramLine) (es : List HostEvent), lineWords line ≠ [] → nextAgent s = .host →
    (s.inputs = lineEvents .enc line ++ es → (∃ w ∈ s.offers, w.toNat < 2 ^ 64) ∨ s.enc.st = .run →
      step s = .next (advance s)) ∧
    (s.inputs = lineEvents .dec line ++ es → (∃ w ∈ s.offers, 2 ^ 64 ≤ w.toNat) ∨ s.dec.st = .run →
      step s = .next (advance s)) ∧
    (s.inputs = lineEvents .bothThenReset line ++ es → s.offers ≠ [] ∨ s.enc.st = .run ∨ s.dec.st = .run →
      step s = .next (advance s))) ∧
  (∀ (s : State) (b : Before) (line : ProgramLine) (es : List HostEvent) (turns : List Agent),
    lineWords line ≠ [] → s.inputs = lineEvents b line ++ es →
    (b = .enc → (∀ w ∈ s.offers, 2 ^ 64 ≤ w.toNat) ∧ s.enc.st = .idle) →
    (b = .dec → (∀ w ∈ s.offers, w.toNat < 2 ^ 64) ∧ s.dec.st = .idle) →
    (b = .bothThenReset → s.offers = [] ∧ s.enc.st = .idle ∧ s.dec.st = .idle) →
    let n := (if b = .nothing ∨ b = .both then 0 else 1) + (lineWords line).length
    s.sched = List.replicate n .host ++ turns →
    runSteps n s = .next { s with
      inputs := es, offers := s.offers ++ lineWords line, sched := turns, draws := s.draws + n }) ∧
  (∀ (s : State) (b : Before) (es : List HostEvent), nextAgent s = .host → s.inputs = lineEvents b .reset ++ es →
    step s = .next { advance s with
      enc := { rem := 0, cnt := 0, st := .idle }
      dec := { acc := 0, pos := 0, st := .idle }
      inputs := es })

/-- The environment that a program's lines describe is attached before its first command, once nothing is outstanding,
wherever the lines stand, so the `k`-th write of a sink that fails at `k` is the `k`-th write of the program. A program
without such a line keeps the stream that is attached (R98, R51; D19; that the environment is attached at the start, and
what several lines on one stream say, is log 5, the wait log 13). -/
def Obligations.ProgramEnvironmentAttachedFirst : Prop :=
  (∀ p : List ProgramLine, programEvents p = environmentEvents p ++ commandEvents .nothing p) ∧
  (∀ (p q : List ProgramLine) (n : Nat), (∀ k, .sinkFailAt k ∉ q) → .sinkOk ∉ q →
    programSink (p ++ .sinkOk :: q) = some { content := [], answers := [], rest := .accepts } ∧
    programSink (p ++ .sinkFailAt (n + 1) :: q) =
      some { content := [], answers := List.replicate n .ok ++ [.fail []], rest := .accepts } ∧
    programSink q = none) ∧
  (∀ (p q : List ProgramLine) (bytes : List Byte), (∀ c, .source c ∉ p ∧ .source c ∉ q) →
    programSource (p ++ .loopback :: q) = some { position := 0, answers := [], rest := .loopback } ∧
    (.loopback ∉ p → .loopback ∉ q → programSource p = none ∧
      programSource (p ++ .source bytes :: q) =
        some { position := 0, answers := bytes.map .byte, rest := .ends })) ∧
  (∀ (s : State) (p : List ProgramLine) (es : List HostEvent), nextAgent s = .host →
    s.inputs = environmentEvents p ++ es → s.offers ≠ [] ∨ s.enc.st = .run ∨ s.dec.st = .run →
    step s = .next (advance s)) ∧
  (∀ (s : State) (p : List ProgramLine) (es : List HostEvent) (turns : List Agent),
    s.inputs = environmentEvents p ++ es → s.offers = [] → s.enc.st = .idle → s.dec.st = .idle →
    let n := (environmentEvents p).length
    s.sched = List.replicate n .host ++ turns →
    runSteps n s = .next { s with
      inputs := es
      sink := (programSink p).getD s.sink
      source := (programSource p).getD s.source
      sched := turns
      draws := s.draws + n })
end

