-- ==== Sys2Proof/Laws/State.lean ====
section
/-! SUPPORT. One lemma per field per update of State: what each update writes and what it leaves. -/

namespace Sys2Proof.Machine

section Updates

variable (s : State) (e : Enc) (d : Dec) (k : Sink) (c : Source)

@[simp] theorem State.setEnc_enc : (s.setEnc e).enc = e := rfl
@[simp] theorem State.setEnc_dec : (s.setEnc e).dec = s.dec := rfl
@[simp] theorem State.setEnc_sink : (s.setEnc e).sink = s.sink := rfl
@[simp] theorem State.setEnc_source : (s.setEnc e).source = s.source := rfl
@[simp] theorem State.setEnc_inputs : (s.setEnc e).inputs = s.inputs := rfl
@[simp] theorem State.setEnc_offers : (s.setEnc e).offers = s.offers := rfl
@[simp] theorem State.setEnc_encRsps : (s.setEnc e).encRsps = s.encRsps := rfl
@[simp] theorem State.setEnc_decRsps : (s.setEnc e).decRsps = s.decRsps := rfl
@[simp] theorem State.setEnc_sched : (s.setEnc e).sched = s.sched := rfl
@[simp] theorem State.setEnc_draws : (s.setEnc e).draws = s.draws := rfl

@[simp] theorem State.setDec_enc : (s.setDec d).enc = s.enc := rfl
@[simp] theorem State.setDec_dec : (s.setDec d).dec = d := rfl
@[simp] theorem State.setDec_sink : (s.setDec d).sink = s.sink := rfl
@[simp] theorem State.setDec_source : (s.setDec d).source = s.source := rfl
@[simp] theorem State.setDec_inputs : (s.setDec d).inputs = s.inputs := rfl
@[simp] theorem State.setDec_offers : (s.setDec d).offers = s.offers := rfl
@[simp] theorem State.setDec_encRsps : (s.setDec d).encRsps = s.encRsps := rfl
@[simp] theorem State.setDec_decRsps : (s.setDec d).decRsps = s.decRsps := rfl
@[simp] theorem State.setDec_sched : (s.setDec d).sched = s.sched := rfl
@[simp] theorem State.setDec_draws : (s.setDec d).draws = s.draws := rfl

@[simp] theorem State.setSink_enc : (s.setSink k).enc = s.enc := rfl
@[simp] theorem State.setSink_dec : (s.setSink k).dec = s.dec := rfl
@[simp] theorem State.setSink_sink : (s.setSink k).sink = k := rfl
@[simp] theorem State.setSink_source : (s.setSink k).source = s.source := rfl
@[simp] theorem State.setSink_inputs : (s.setSink k).inputs = s.inputs := rfl
@[simp] theorem State.setSink_offers : (s.setSink k).offers = s.offers := rfl
@[simp] theorem State.setSink_encRsps : (s.setSink k).encRsps = s.encRsps := rfl
@[simp] theorem State.setSink_decRsps : (s.setSink k).decRsps = s.decRsps := rfl
@[simp] theorem State.setSink_sched : (s.setSink k).sched = s.sched := rfl
@[simp] theorem State.setSink_draws : (s.setSink k).draws = s.draws := rfl

@[simp] theorem State.setSource_enc : (s.setSource c).enc = s.enc := rfl
@[simp] theorem State.setSource_dec : (s.setSource c).dec = s.dec := rfl
@[simp] theorem State.setSource_sink : (s.setSource c).sink = s.sink := rfl
@[simp] theorem State.setSource_source : (s.setSource c).source = c := rfl
@[simp] theorem State.setSource_inputs : (s.setSource c).inputs = s.inputs := rfl
@[simp] theorem State.setSource_offers : (s.setSource c).offers = s.offers := rfl
@[simp] theorem State.setSource_encRsps : (s.setSource c).encRsps = s.encRsps := rfl
@[simp] theorem State.setSource_decRsps : (s.setSource c).decRsps = s.decRsps := rfl
@[simp] theorem State.setSource_sched : (s.setSource c).sched = s.sched := rfl
@[simp] theorem State.setSource_draws : (s.setSource c).draws = s.draws := rfl

@[simp] theorem State.setInputs_enc (l : List HostEvent) : (s.setInputs l).enc = s.enc := rfl
@[simp] theorem State.setInputs_dec (l : List HostEvent) : (s.setInputs l).dec = s.dec := rfl
@[simp] theorem State.setInputs_sink (l : List HostEvent) : (s.setInputs l).sink = s.sink := rfl
@[simp] theorem State.setInputs_source (l : List HostEvent) : (s.setInputs l).source = s.source := rfl
@[simp] theorem State.setInputs_inputs (l : List HostEvent) : (s.setInputs l).inputs = l := rfl
@[simp] theorem State.setInputs_offers (l : List HostEvent) : (s.setInputs l).offers = s.offers := rfl
@[simp] theorem State.setInputs_encRsps (l : List HostEvent) : (s.setInputs l).encRsps = s.encRsps := rfl
@[simp] theorem State.setInputs_decRsps (l : List HostEvent) : (s.setInputs l).decRsps = s.decRsps := rfl
@[simp] theorem State.setInputs_sched (l : List HostEvent) : (s.setInputs l).sched = s.sched := rfl
@[simp] theorem State.setInputs_draws (l : List HostEvent) : (s.setInputs l).draws = s.draws := rfl

@[simp] theorem State.setOffers_enc (l : List CmdWord) : (s.setOffers l).enc = s.enc := rfl
@[simp] theorem State.setOffers_dec (l : List CmdWord) : (s.setOffers l).dec = s.dec := rfl
@[simp] theorem State.setOffers_sink (l : List CmdWord) : (s.setOffers l).sink = s.sink := rfl
@[simp] theorem State.setOffers_source (l : List CmdWord) : (s.setOffers l).source = s.source := rfl
@[simp] theorem State.setOffers_inputs (l : List CmdWord) : (s.setOffers l).inputs = s.inputs := rfl
@[simp] theorem State.setOffers_offers (l : List CmdWord) : (s.setOffers l).offers = l := rfl
@[simp] theorem State.setOffers_encRsps (l : List CmdWord) : (s.setOffers l).encRsps = s.encRsps := rfl
@[simp] theorem State.setOffers_decRsps (l : List CmdWord) : (s.setOffers l).decRsps = s.decRsps := rfl
@[simp] theorem State.setOffers_sched (l : List CmdWord) : (s.setOffers l).sched = s.sched := rfl
@[simp] theorem State.setOffers_draws (l : List CmdWord) : (s.setOffers l).draws = s.draws := rfl

@[simp] theorem State.setEncRsps_enc (l : List EncResult) : (s.setEncRsps l).enc = s.enc := rfl
@[simp] theorem State.setEncRsps_dec (l : List EncResult) : (s.setEncRsps l).dec = s.dec := rfl
@[simp] theorem State.setEncRsps_sink (l : List EncResult) : (s.setEncRsps l).sink = s.sink := rfl
@[simp] theorem State.setEncRsps_source (l : List EncResult) : (s.setEncRsps l).source = s.source := rfl
@[simp] theorem State.setEncRsps_inputs (l : List EncResult) : (s.setEncRsps l).inputs = s.inputs := rfl
@[simp] theorem State.setEncRsps_offers (l : List EncResult) : (s.setEncRsps l).offers = s.offers := rfl
@[simp] theorem State.setEncRsps_encRsps (l : List EncResult) : (s.setEncRsps l).encRsps = l := rfl
@[simp] theorem State.setEncRsps_decRsps (l : List EncResult) : (s.setEncRsps l).decRsps = s.decRsps := rfl
@[simp] theorem State.setEncRsps_sched (l : List EncResult) : (s.setEncRsps l).sched = s.sched := rfl
@[simp] theorem State.setEncRsps_draws (l : List EncResult) : (s.setEncRsps l).draws = s.draws := rfl

@[simp] theorem State.setDecRsps_enc (l : List DecResult) : (s.setDecRsps l).enc = s.enc := rfl
@[simp] theorem State.setDecRsps_dec (l : List DecResult) : (s.setDecRsps l).dec = s.dec := rfl
@[simp] theorem State.setDecRsps_sink (l : List DecResult) : (s.setDecRsps l).sink = s.sink := rfl
@[simp] theorem State.setDecRsps_source (l : List DecResult) : (s.setDecRsps l).source = s.source := rfl
@[simp] theorem State.setDecRsps_inputs (l : List DecResult) : (s.setDecRsps l).inputs = s.inputs := rfl
@[simp] theorem State.setDecRsps_offers (l : List DecResult) : (s.setDecRsps l).offers = s.offers := rfl
@[simp] theorem State.setDecRsps_encRsps (l : List DecResult) : (s.setDecRsps l).encRsps = s.encRsps := rfl
@[simp] theorem State.setDecRsps_decRsps (l : List DecResult) : (s.setDecRsps l).decRsps = l := rfl
@[simp] theorem State.setDecRsps_sched (l : List DecResult) : (s.setDecRsps l).sched = s.sched := rfl
@[simp] theorem State.setDecRsps_draws (l : List DecResult) : (s.setDecRsps l).draws = s.draws := rfl

@[simp] theorem advance_enc : (advance s).enc = s.enc := rfl
@[simp] theorem advance_dec : (advance s).dec = s.dec := rfl
@[simp] theorem advance_sink : (advance s).sink = s.sink := rfl
@[simp] theorem advance_source : (advance s).source = s.source := rfl
@[simp] theorem advance_inputs : (advance s).inputs = s.inputs := rfl
@[simp] theorem advance_offers : (advance s).offers = s.offers := rfl
@[simp] theorem advance_encRsps : (advance s).encRsps = s.encRsps := rfl
@[simp] theorem advance_decRsps : (advance s).decRsps = s.decRsps := rfl
@[simp] theorem advance_sched : (advance s).sched = s.sched.tail := rfl
@[simp] theorem advance_draws : (advance s).draws = s.draws + 1 := rfl

end Updates

end Sys2Proof.Machine
end

