-- ==== Sys2Proof/Laws/Ops.lean ====
section
/-! SUPPORT. What each shared operation does, said once, for the proofs to cite. -/

namespace Sys2Proof.Machine

variable (s : State)

/-! ### Flags, positions and turns -/

@[simp] theorem State.encRuns_iff : s.encRuns = true ↔ s.enc.st = .run := by simp [State.encRuns]

@[simp] theorem State.decRuns_iff : s.decRuns = true ↔ s.dec.st = .run := by simp [State.decRuns]

@[simp] theorem State.encRuns_eq_false_iff : s.encRuns = false ↔ s.enc.st = .idle := by
  cases h : s.enc.st <;> simp [State.encRuns, h]

@[simp] theorem State.decRuns_eq_false_iff : s.decRuns = false ↔ s.dec.st = .idle := by
  cases h : s.dec.st <;> simp [State.decRuns, h]

@[simp] theorem atLastPos_iff (p : Pos) : atLastPos p = true ↔ p = 4#3 := by
  simp [atLastPos, Config.lastPos, Config.maxSize]

@[simp] theorem atLastPos_eq_false_iff (p : Pos) : atLastPos p = false ↔ p ≠ 4#3 := by
  simp [atLastPos, Config.lastPos, Config.maxSize]

@[simp] theorem moreFlag_iff (rem : Pattern) : moreFlag rem = true ↔ restOf rem ≠ 0 := by simp [moreFlag]

theorem nextAgent_cons {a : Agent} {l : List Agent} (h : s.sched = a :: l) : nextAgent s = a := by
  simp [nextAgent, h]

/-! ### The streams -/

theorem State.sinkAnswer_cons {a : SinkAnswer} {l : List SinkAnswer} (h : s.sink.answers = a :: l) :
    s.sinkAnswer = a := by
  simp [State.sinkAnswer, h]

theorem State.sourceAnswer_cons {a : SourceAnswer} {l : List SourceAnswer} (h : s.source.answers = a :: l) :
    s.sourceAnswer = a := by
  simp [State.sourceAnswer, h]

@[simp] theorem State.sinkWrite_eq (b : Byte) (a : SinkAnswer) :
    s.sinkWrite b a =
      { s with sink := { s.sink with
          content := s.sink.content ++ written b a, answers := s.sink.answers.tail } } := rfl

@[simp] theorem State.sourceRead_eq (a : SourceAnswer) :
    s.sourceRead a =
      { s with source := { s.source with
          position := s.source.position + moved a, answers := s.source.answers.tail } } := rfl

@[simp] theorem written_ok (b : Byte) : written b .ok = [b] := rfl

@[simp] theorem written_fail (b : Byte) (l : List Byte) : written b (.fail l) = l := rfl

@[simp] theorem moved_byte (b : Byte) : moved (.byte b) = 1 := rfl

@[simp] theorem moved_fail (n : Nat) : moved (.fail n) = n := rfl

/-! ### Accepting and ending an operation -/

@[simp] theorem State.acceptEnc_eq (v : Int) :
    s.acceptEnc v = { s with enc := { rem := u64 v, cnt := 0, st := .run } } := rfl

@[simp] theorem State.acceptDec_eq :
    s.acceptDec = { s with dec := { acc := 0, pos := 0, st := .run } } := rfl

/-- Every end of an ENCODE, success or error: a response, cleared registers, IDLE, and nothing else. -/
@[simp] theorem State.endEnc_eq (r : EncResult) :
    s.endEnc r = { s with enc := Enc.cleared, encRsps := s.encRsps ++ [r] } := rfl

/-- Every end of a DECODE. -/
@[simp] theorem State.endDec_eq (r : DecResult) :
    s.endDec r = { s with dec := Dec.cleared, decRsps := s.decRsps ++ [r] } := rfl

@[simp] theorem State.respondEnc_eq : s.respondEnc = s.endEnc .ok := rfl

@[simp] theorem State.respondDec_eq (v : Int) : s.respondDec v = s.endDec (.ok v) := rfl

@[simp] theorem State.raiseEnc_eq (e : ErrorKind) : s.raiseEnc e = s.endEnc (.err e) := rfl

@[simp] theorem State.raiseDec_eq (e : ErrorKind) : s.raiseDec e = s.endDec (.err e) := rfl

@[simp] theorem State.resetCore_eq :
    s.resetCore = { s with enc := Enc.cleared, dec := Dec.cleared } := rfl

@[simp] theorem State.holdOffer_eq (w : CmdWord) :
    s.holdOffer w = { s with offers := w :: s.offers } := rfl

/-- The final conversion never takes its failure path. -/
@[simp] theorem finalConversion_eq (acc : Pattern) : finalConversion acc = .ok (s64 acc) := by
  simp [finalConversion, Config.valueWidth, acc.isLt]

/-! ### Offers -/

/-- What `takeOffer` answers: the first word `p` holds of, taken out of its place. -/
theorem takeOffer_append {p : CmdWord → Bool} {pre post : List CmdWord} {w : CmdWord}
    (hpre : ∀ x ∈ pre, p x = false) (hw : p w = true) :
    takeOffer p (pre ++ w :: post) = some (w, pre ++ post) := by
  induction pre with
  | nil => simp [takeOffer, hw]
  | cons x xs ih =>
    have hx : p x = false := hpre x (by simp)
    simp [takeOffer, hx, ih fun y hy => hpre y (by simp [hy])]

theorem takeOffer_none_iff {p : CmdWord → Bool} {l : List CmdWord} :
    takeOffer p l = none ↔ ∀ x ∈ l, p x = false := by
  induction l with
  | nil => simp [takeOffer]
  | cons x xs ih =>
    cases hx : p x <;> cases h : takeOffer p xs <;> simp_all [takeOffer]

theorem takeOffer_some_iff {p : CmdWord → Bool} {l ws : List CmdWord} {w : CmdWord} :
    takeOffer p l = some (w, ws) ↔
      ∃ pre post, l = pre ++ w :: post ∧ ws = pre ++ post ∧ p w = true ∧ ∀ x ∈ pre, p x = false := by
  constructor
  · intro h
    induction l generalizing ws with
    | nil => simp [takeOffer] at h
    | cons x xs ih =>
      cases hx : p x with
      | true =>
        simp only [takeOffer, hx, if_true, Option.some.injEq, Prod.mk.injEq] at h
        obtain ⟨rfl, rfl⟩ := h
        exact ⟨[], xs, rfl, rfl, hx, by simp⟩
      | false =>
        cases ht : takeOffer p xs with
        | none => simp [takeOffer, hx, ht] at h
        | some y =>
          obtain ⟨y, ys⟩ := y
          simp only [takeOffer, hx, ht] at h
          obtain ⟨rfl, rfl⟩ := h
          obtain ⟨pre, post, rfl, rfl, hw, hpre⟩ := ih ht
          exact ⟨x :: pre, post, rfl, rfl, hw, by simpa [hx] using hpre⟩
  · rintro ⟨pre, post, rfl, rfl, hw, hpre⟩
    exact takeOffer_append hpre hw

/-! ### The meanings -/

/-- What an offered ENCODE does. -/
theorem execEncode_eq (v : Int) :
    execEncode v s = .next (match s.enc.st with
      | .idle => { s with enc := { rem := u64 v, cnt := 0, st := .run } }
      | .run => { s with offers := cmdWord false (u64 v) :: s.offers }) := by
  cases h : s.enc.st <;> simp [execEncode, State.encRuns, h]

/-- What an offered DECODE does. -/
theorem execDecode_eq :
    execDecode s = .next (match s.dec.st with
      | .idle => { s with dec := { acc := 0, pos := 0, st := .run } }
      | .run => { s with offers := cmdWord true 0 :: s.offers }) := by
  cases h : s.dec.st <;> simp [execDecode, State.decRuns, h]

/-- What CHUNK_CONT does. -/
theorem execChunkCont_eq (d : Data) :
    execChunkCont d s = .next (match s.dec.st with
      | .idle => s
      | .run =>
        if s.dec.pos = 4#3 then
          { s with dec := Dec.cleared, decRsps := s.decRsps ++ [.err .malformedEncoding] }
        else
          { s with dec := { acc := fold s.dec.acc s.dec.pos d, pos := s.dec.pos + 1, st := .run } }) := by
  have hr := s.decRuns_iff
  have hp := atLastPos_iff s.dec.pos
  cases h : s.dec.st
  · simp [execChunkCont, State.decRuns, h]
  · simp only [h, iff_true] at hr
    unfold execChunkCont
    rw [if_pos hr]
    split <;> rename_i hl <;> simp only [hp] at hl <;> simp [hl, State.setDec, h]

/-- What CHUNK_LAST does. -/
theorem execChunkLast_eq (d : Data) :
    execChunkLast d s = .next (match s.dec.st with
      | .idle => s
      | .run =>
        { s with
          dec := Dec.cleared
          decRsps := s.decRsps ++ [.ok (s64 (fold s.dec.acc s.dec.pos d))] }) := by
  cases h : s.dec.st <;> simp [execChunkLast, State.decRuns, h]

/-- What ENC-CHUNK does. -/
theorem encChunk_eq :
    encChunk s = match s.sinkAnswer with
      | .ok =>
        let w := s.sinkWrite (chunkOf s.enc.rem) .ok
        if restOf s.enc.rem = 0 ∨ s.enc.cnt = 4#3 then
          { w with enc := Enc.cleared, encRsps := s.encRsps ++ [.ok] }
        else { w with enc := { rem := restOf s.enc.rem, cnt := s.enc.cnt + 1, st := .run } }
      | .fail left =>
        { s.sinkWrite (chunkOf s.enc.rem) (.fail left) with
          enc := Enc.cleared, encRsps := s.encRsps ++ [.err .sinkWriteError] } := by
  have hm := moreFlag_iff s.enc.rem
  have hp := atLastPos_iff s.enc.cnt
  cases h : s.sinkAnswer
  · have he : (!moreFlag s.enc.rem || atLastPos s.enc.cnt) = true ↔
        restOf s.enc.rem = 0 ∨ s.enc.cnt = 4#3 := by
      rw [Bool.or_eq_true, hp, Bool.not_eq_true', ← Bool.not_eq_true, hm, not_not]
    unfold encChunk encAdvance
    simp only [h, he]
    split <;> simp [State.setEnc]
  · simp [encChunk, h]

end Sys2Proof.Machine
end

