-- ==== Sys2Proof/Laws/Words.lean ====
section
/-! SUPPORT. The fields of the words and the two reinterpretations: what each reads of what is written, and their
values in arithmetic. -/

namespace Sys2Proof

/-! ### Chunks -/

@[simp] theorem contBit_chunkByte (c : Bool) (d : Data) : contBit (chunkByte c d) = c := by
  cases c <;> revert d <;> decide

@[simp] theorem dataField_chunkByte (c : Bool) (d : Data) : dataField (chunkByte c d) = d := by
  cases c <;> revert d <;> decide

@[simp] theorem chunkByte_fields (b : Byte) : chunkByte (contBit b) (dataField b) = b := by
  revert b; decide

theorem contBit_iff (b : Byte) : contBit b = true ↔ 128 ≤ b.toNat := by revert b; decide

theorem contBit_eq_false_iff (b : Byte) : contBit b = false ↔ b.toNat < 128 := by revert b; decide

theorem dataField_toNat (b : Byte) : (dataField b).toNat = b.toNat % 128 := by revert b; decide

theorem chunkByte_toNat (c : Bool) (d : Data) :
    (chunkByte c d).toNat = (if c then 128 else 0) + d.toNat := by
  cases c <;> revert d <;> decide

/-! ### Command words -/

theorem cmdWord_getLsbD (c : Bool) (d : Pattern) (i : Nat) :
    (cmdWord c d).getLsbD i = if i < 64 then d.getLsbD i else (BitVec.ofBool c).getLsbD (i - 64) := by
  have h := BitVec.getLsbD_append (x := BitVec.ofBool c) (y := d) (i := i)
  rw [cmdWord]
  exact h

@[simp] theorem opBit_cmdWord (c : Bool) (d : Pattern) : opBit (cmdWord c d) = c := by
  rw [opBit, cmdWord_getLsbD]
  simp

@[simp] theorem valueField_cmdWord (c : Bool) (d : Pattern) : valueField (cmdWord c d) = d := by
  apply BitVec.eq_of_getLsbD_eq
  intro i hi
  rw [valueField, BitVec.getLsbD_extractLsb', Nat.zero_add, cmdWord_getLsbD]
  simp [hi]

@[simp] theorem cmdWord_fields (w : CmdWord) : cmdWord (opBit w) (valueField w) = w := by
  apply BitVec.eq_of_getLsbD_eq
  intro i hi
  rw [cmdWord_getLsbD, valueField, BitVec.getLsbD_extractLsb']
  by_cases h : i < 64
  · simp [h]
  · have : i = 64 := by omega
    subst this
    simp [opBit]

theorem opBit_iff (w : CmdWord) : opBit w = true ↔ 2 ^ 64 ≤ w.toNat := by
  have := w.isLt
  simp only [opBit, BitVec.getLsbD, Nat.testBit, Nat.shiftRight_eq_div_pow]
  simp
  omega

theorem opBit_eq_false_iff (w : CmdWord) : opBit w = false ↔ w.toNat < 2 ^ 64 := by
  rw [← Bool.not_eq_true, opBit_iff]
  omega

theorem valueField_toNat (w : CmdWord) : (valueField w).toNat = w.toNat % 2 ^ 64 := by simp [valueField]

theorem opMask (w : CmdWord) :
    w &&& 0x10000000000000000 = if opBit w then 0x10000000000000000 else 0 := by
  have h1 : (0x10000000000000000 : CmdWord) = BitVec.twoPow 65 64 := by decide
  have h0 : (0 : CmdWord) = 0#65 := rfl
  apply BitVec.eq_of_getLsbD_eq
  intro i hi
  rw [h1, h0, BitVec.getLsbD_and, BitVec.getLsbD_twoPow]
  by_cases h : i = 64
  · subst h
    cases hb : opBit w <;> simp_all [opBit]
  · cases hb : opBit w <;> simp [opBit] at hb <;> simp [BitVec.getLsbD_twoPow] <;> omega

/-! ### The reinterpretations -/

theorem inValueRange_iff (v : Int) : inValueRange v = true ↔ -2 ^ 63 ≤ v ∧ v < 2 ^ 63 := by
  simp [inValueRange]

@[simp] theorem u64_s64 (u : Pattern) : u64 (s64 u) = u := BitVec.ofInt_toInt

theorem s64_u64 {v : Int} (h : inValueRange v = true) : s64 (u64 v) = v := by
  rw [inValueRange_iff] at h
  rw [s64, u64, BitVec.toInt_ofInt]
  apply Int.bmod_eq_of_le <;> omega

@[simp] theorem inValueRange_s64 (u : Pattern) : inValueRange (s64 u) = true := by
  have h1 := BitVec.two_mul_toInt_lt (x := u)
  have h2 := BitVec.le_two_mul_toInt (x := u)
  rw [inValueRange_iff, s64]
  constructor <;> omega

theorem u64_toNat (v : Int) : ((u64 v).toNat : Int) = v % 2 ^ 64 := by
  rw [u64, BitVec.toNat_ofInt]
  omega

theorem s64_of_lt {u : Pattern} (h : u.toNat < 2 ^ 63) : s64 u = u.toNat := by
  rw [s64, BitVec.toInt_eq_toNat_of_lt]
  omega

end Sys2Proof
end

