-- ==== Sys2Proof/Laws/PerInstr.lean ====
section
/-! SUPPORT. The claims made once per instruction: the encoder's word of each instruction lies in its row of the opcode
table (30_encoding R82, R83, R95, R97). -/

namespace Sys2Proof.Laws

/-- What a row of the opcode table says of its words. -/
structure Row where
  format : Format
  pattern : Nat
  mask : Nat

/-- The row of an instruction: its format, `match` and `mask`. -/
def rowOf : Instr → Row
  | .encode _ => ⟨.cmd, 0x00000000000000000, 0x10000000000000000⟩
  | .decode => ⟨.cmd, 0x10000000000000000, 0x10000000000000000⟩
  | .chunkCont _ => ⟨.chunk, 0x80, 0x80⟩
  | .chunkLast _ => ⟨.chunk, 0x00, 0x80⟩

/-- Whether a word has a row's format, and its pattern under the row's mask. -/
def Row.holds (r : Row) : InstrWord → Prop
  | .cmd w => r.format = .cmd ∧ w &&& BitVec.ofNat 65 r.mask = BitVec.ofNat 65 r.pattern
  | .chunk b => r.format = .chunk ∧ b &&& BitVec.ofNat 8 r.mask = BitVec.ofNat 8 r.pattern

/-- The word of `i` lies in the row of `i`. -/
def TableRow.Statement (i : Instr) : Prop := (rowOf i).holds (encodeWord i)

/-- Under the mask of the two command rows only the `op` bit is left. -/
theorem cmdWord_and_mask (c : Bool) (p : Pattern) :
    cmdWord c p &&& BitVec.ofNat 65 0x10000000000000000 = cmdWord c 0 := by
  apply BitVec.eq_of_getLsbD_eq
  intro i hi
  rw [BitVec.getLsbD_and, cmdWord_getLsbD, cmdWord_getLsbD]
  by_cases h : i < 64
  · have hm : (BitVec.ofNat 65 0x10000000000000000).getLsbD i = false := by
      rw [show (0x10000000000000000 : Nat) = 2 ^ 64 by norm_num, BitVec.getLsbD_ofNat, Nat.testBit_two_pow]
      simp; omega
    rw [hm, if_pos h, if_pos h]
    simp
  · have : i = 64 := by omega
    subst this
    rw [if_neg h, if_neg h]
    cases c <;> decide

theorem TableRow.encode (value : Int) : TableRow.Statement (.encode value) :=
  ⟨rfl, (cmdWord_and_mask false (u64 value)).trans (show cmdWord false 0 = BitVec.ofNat 65 0 by decide)⟩

theorem TableRow.decode : TableRow.Statement .decode :=
  ⟨rfl, (cmdWord_and_mask true 0).trans (by rfl)⟩

theorem TableRow.chunkCont (data : Data) : TableRow.Statement (.chunkCont data) :=
  ⟨rfl, by revert data; decide⟩

theorem TableRow.chunkLast (data : Data) : TableRow.Statement (.chunkLast data) :=
  ⟨rfl, by revert data; decide⟩

end Sys2Proof.Laws
end

