-- ==== Sys2Proof/Laws/Step.lean ====
section
/-! SUPPORT. What one step can do, said once: each way `step s` answers a next state, by agent. -/

namespace Sys2Proof.Machine

/-! ### Decoding a taken word -/



theorem decodeCmd_of_encode {w : CmdWord} (h : opBit w = false) : decodeCmd w = .encode (s64 (valueField w)) := by
  simp [decodeCmd, h]

theorem decodeCmd_of_decode {w : CmdWord} (h : opBit w = true) : decodeCmd w = .decode := by
  simp [decodeCmd, h]

theorem decodeChunk_of_cont {b : Byte} (h : contBit b = true) : decodeChunk b = .chunkCont (dataField b) := by
  simp [decodeChunk, h]

theorem decodeChunk_of_last {b : Byte} (h : contBit b = false) : decodeChunk b = .chunkLast (dataField b) := by
  simp [decodeChunk, h]

/-! ### The turns -/

theorem encStep_of_run {s : State} (h : s.enc.st = .run) : encStep s = .next (encChunk s) := by
  simp [encStep, State.encRuns, h]

theorem encStep_of_idle_none {s : State} (h : s.enc.st = .idle)
    (ho : takeOffer (fun w => !opBit w) s.offers = none) : encStep s = .next s := by
  simp [encStep, State.encRuns, h, ho]

theorem encStep_of_idle_some {s : State} {w : CmdWord} {ws : List CmdWord} (h : s.enc.st = .idle)
    (ho : takeOffer (fun w => !opBit w) s.offers = some (w, ws)) :
    encStep s = exec (decodeCmd w) (s.setOffers ws) := by
  simp [encStep, State.encRuns, h, ho]

theorem decStep_of_run_byte {s : State} {b : Byte} (h : s.dec.st = .run) (ha : s.sourceAnswer = .byte b) :
    decStep s = exec (decodeChunk b) (s.sourceRead (.byte b)) := by
  simp [decStep, State.decRuns, h, ha]

theorem decStep_of_run_fail {s : State} {m : Nat} (h : s.dec.st = .run) (ha : s.sourceAnswer = .fail m) :
    decStep s = .next ((s.sourceRead (.fail m)).raiseDec .sourceReadError) := by
  simp [decStep, State.decRuns, h, ha]

theorem decStep_of_idle_none {s : State} (h : s.dec.st = .idle)
    (ho : takeOffer opBit s.offers = none) : decStep s = .next s := by
  simp [decStep, State.decRuns, h, ho]

theorem decStep_of_idle_some {s : State} {w : CmdWord} {ws : List CmdWord} (h : s.dec.st = .idle)
    (ho : takeOffer opBit s.offers = some (w, ws)) :
    decStep s = exec (decodeCmd w) (s.setOffers ws) := by
  simp [decStep, State.decRuns, h, ho]

/-- The accept step of ENC, with the decoded word. -/
theorem encStep_accepts {s : State} {w : CmdWord} {ws : List CmdWord} (h : s.enc.st = .idle)
    (ho : takeOffer (fun w => !opBit w) s.offers = some (w, ws)) :
    encStep s = .next { s with offers := ws, enc := { rem := valueField w, cnt := 0, st := .run } } := by
  obtain ⟨-, -, -, -, hw, -⟩ := takeOffer_some_iff.1 ho
  rw [encStep_of_idle_some h ho, decodeCmd_of_encode (by simpa using hw), exec, execEncode_eq]
  simp [h, u64_s64, State.setOffers]

/-- The accept step of DEC, with the decoded word. -/
theorem decStep_accepts {s : State} {w : CmdWord} {ws : List CmdWord} (h : s.dec.st = .idle)
    (ho : takeOffer opBit s.offers = some (w, ws)) :
    decStep s = .next { s with offers := ws, dec := { acc := 0, pos := 0, st := .run } } := by
  obtain ⟨-, -, -, -, hw, -⟩ := takeOffer_some_iff.1 ho
  rw [decStep_of_idle_some h ho, decodeCmd_of_decode hw, exec, execDecode_eq]
  simp [h, State.setOffers]

/-- ENC's chunk step, in the state before the turn. -/
theorem step_encChunk {s : State} (ha : nextAgent s = .enc) (hr : s.enc.st = .run) :
    step s = .next (match (advance s).sinkAnswer with
      | .ok =>
        if restOf s.enc.rem = 0 ∨ s.enc.cnt = 4#3 then
          { advance s with
            enc := Enc.cleared
            sink := { s.sink with
              content := s.sink.content ++ [chunkOf s.enc.rem], answers := s.sink.answers.tail }
            encRsps := s.encRsps ++ [.ok] }
        else
          { advance s with
            enc := { rem := restOf s.enc.rem, cnt := s.enc.cnt + 1, st := .run }
            sink := { s.sink with
              content := s.sink.content ++ [chunkOf s.enc.rem], answers := s.sink.answers.tail } }
      | .fail left =>
        { advance s with
          enc := Enc.cleared
          sink := { s.sink with content := s.sink.content ++ left, answers := s.sink.answers.tail }
          encRsps := s.encRsps ++ [.err .sinkWriteError] }) := by
  rw [step, ha, agentStep, encStep_of_run (s := advance s) hr, encChunk_eq]
  cases (advance s).sinkAnswer <;> rfl

/-- Every way in which a step answers a next state. -/
inductive StepTo (s : State) : State → Prop
  | encChunk (ha : nextAgent s = .enc) (hr : s.enc.st = .run) : StepTo s (encChunk (advance s))
  | encAccept (w : CmdWord) (ws : List CmdWord) (ha : nextAgent s = .enc) (hr : s.enc.st = .idle)
      (ho : takeOffer (fun w => !opBit w) s.offers = some (w, ws)) :
      StepTo s { advance s with offers := ws, enc := { rem := valueField w, cnt := 0, st := .run } }
  | encRests (ha : nextAgent s = .enc) (hr : s.enc.st = .idle)
      (ho : takeOffer (fun w => !opBit w) s.offers = none) : StepTo s (advance s)
  | decFail (m : Nat) (ha : nextAgent s = .dec) (hr : s.dec.st = .run)
      (hs : (advance s).sourceAnswer = .fail m) :
      StepTo s (((advance s).sourceRead (.fail m)).raiseDec .sourceReadError)
  | decMalformed (b : Byte) (ha : nextAgent s = .dec) (hr : s.dec.st = .run)
      (hs : (advance s).sourceAnswer = .byte b) (hc : contBit b = true) (hp : s.dec.pos = 4#3) :
      StepTo s (((advance s).sourceRead (.byte b)).raiseDec .malformedEncoding)
  | decCont (b : Byte) (ha : nextAgent s = .dec) (hr : s.dec.st = .run)
      (hs : (advance s).sourceAnswer = .byte b) (hc : contBit b = true) (hp : s.dec.pos ≠ 4#3) :
      StepTo s { (advance s).sourceRead (.byte b) with
        dec := { acc := fold s.dec.acc s.dec.pos (dataField b), pos := s.dec.pos + 1, st := .run } }
  | decLast (b : Byte) (ha : nextAgent s = .dec) (hr : s.dec.st = .run)
      (hs : (advance s).sourceAnswer = .byte b) (hc : contBit b = false) :
      StepTo s (((advance s).sourceRead (.byte b)).respondDec
        (s64 (fold s.dec.acc s.dec.pos (dataField b))))
  | decAccept (w : CmdWord) (ws : List CmdWord) (ha : nextAgent s = .dec) (hr : s.dec.st = .idle)
      (ho : takeOffer opBit s.offers = some (w, ws)) :
      StepTo s { advance s with offers := ws, dec := { acc := 0, pos := 0, st := .run } }
  | decRests (ha : nextAgent s = .dec) (hr : s.dec.st = .idle) (ho : takeOffer opBit s.offers = none) :
      StepTo s (advance s)
  | hostRests (ha : nextAgent s = .host) (hi : s.inputs = []) : StepTo s (advance s)
  | hostWaits (e : HostEvent) (es : List HostEvent) (ha : nextAgent s = .host) (hi : s.inputs = e :: es)
      (hw : hostWaits s e = true) : StepTo s (advance s)
  | hostActs (t : State) (e : HostEvent) (es : List HostEvent) (ha : nextAgent s = .host) (hi : s.inputs = e :: es)
      (hw : hostWaits s e = false) (ht : hostEvent { advance s with inputs := es } e = .next t) : StepTo s t

/-- What an event of the host leaves, RESET apart: both units, the responses not taken, and the stream of a unit in
RUN. -/
theorem hostEvent_frame {s t : State} {e : HostEvent} (hne : e ≠ .reset) (h : hostEvent s e = .next t) :
    t.enc = s.enc ∧ t.dec = s.dec ∧ t.inputs = s.inputs ∧
      (∃ l, s.encRsps = l ++ t.encRsps) ∧ (∃ l, s.decRsps = l ++ t.decRsps) ∧
      (s.enc.st = .run → t.sink = s.sink) ∧ (s.dec.st = .run → t.source = s.source) := by
  cases e with
  | issue w =>
    cases h
    exact ⟨rfl, rfl, rfl, ⟨[], rfl⟩, ⟨[], rfl⟩, fun _ => rfl, fun _ => rfl⟩
  | takeEnc =>
    cases h
    exact ⟨rfl, rfl, rfl, ⟨s.encRsps.take 1, by simp [← List.drop_one]⟩, ⟨[], rfl⟩, fun _ => rfl, fun _ => rfl⟩
  | takeDec =>
    cases h
    exact ⟨rfl, rfl, rfl, ⟨[], rfl⟩, ⟨s.decRsps.take 1, by simp [← List.drop_one]⟩, fun _ => rfl, fun _ => rfl⟩
  | await =>
    cases h
    exact ⟨rfl, rfl, rfl, ⟨[], rfl⟩, ⟨[], rfl⟩, fun _ => rfl, fun _ => rfl⟩
  | awaitEnc =>
    cases h
    exact ⟨rfl, rfl, rfl, ⟨[], rfl⟩, ⟨[], rfl⟩, fun _ => rfl, fun _ => rfl⟩
  | awaitDec =>
    cases h
    exact ⟨rfl, rfl, rfl, ⟨[], rfl⟩, ⟨[], rfl⟩, fun _ => rfl, fun _ => rfl⟩
  | reset => exact absurd rfl hne
  | attachSink k =>
    by_cases hn : s.enc.st = .run
    · rw [hostEvent, if_pos (s.encRuns_iff.2 hn)] at h
      cases h
    · rw [hostEvent, if_neg (mt s.encRuns_iff.1 hn)] at h
      cases h
      exact ⟨rfl, rfl, rfl, ⟨[], rfl⟩, ⟨[], rfl⟩, fun hr => absurd hr hn, fun _ => rfl⟩
  | attachSource c =>
    by_cases hn : s.dec.st = .run
    · rw [hostEvent, if_pos (s.decRuns_iff.2 hn)] at h
      cases h
    · rw [hostEvent, if_neg (mt s.decRuns_iff.1 hn)] at h
      cases h
      exact ⟨rfl, rfl, rfl, ⟨[], rfl⟩, ⟨[], rfl⟩, fun _ => rfl, fun hr => absurd hr hn⟩
  | foreignWrite b =>
    by_cases hn : s.enc.st = .run
    · rw [hostEvent, if_pos (s.encRuns_iff.2 hn)] at h
      cases h
    · rw [hostEvent, if_neg (mt s.encRuns_iff.1 hn)] at h
      cases h
      exact ⟨rfl, rfl, rfl, ⟨[], rfl⟩, ⟨[], rfl⟩, fun hr => absurd hr hn, fun _ => rfl⟩
  | foreignRead =>
    by_cases hn : s.dec.st = .run
    · rw [hostEvent, if_pos (s.decRuns_iff.2 hn)] at h
      cases h
    · rw [hostEvent, if_neg (mt s.decRuns_iff.1 hn)] at h
      cases h
      exact ⟨rfl, rfl, rfl, ⟨[], rfl⟩, ⟨[], rfl⟩, fun _ => rfl, fun hr => absurd hr hn⟩

/-- An ENCODE is outstanding while one is offered or ENC runs. -/
@[simp] theorem State.encOutstanding_iff (s : State) :
    s.encOutstanding = true ↔ (∃ w ∈ s.offers, opBit w = false) ∨ s.enc.st = .run := by
  simp [State.encOutstanding]

/-- A DECODE is outstanding while one is offered or DEC runs. -/
@[simp] theorem State.decOutstanding_iff (s : State) :
    s.decOutstanding = true ↔ (∃ w ∈ s.offers, opBit w = true) ∨ s.dec.st = .run := by
  simp [State.decOutstanding]

/-- A command is outstanding while one is offered or a unit runs. -/
@[simp] theorem State.outstanding_iff (s : State) :
    s.outstanding = true ↔ s.offers ≠ [] ∨ s.enc.st = .run ∨ s.dec.st = .run := by
  rw [State.outstanding, Bool.or_eq_true, s.encOutstanding_iff, s.decOutstanding_iff]
  cases h : s.offers with
  | nil => simp
  | cons w ws => cases hw : opBit w <;> simp [hw]

/-- Nothing is outstanding once no command is offered and both units are idle. -/
@[simp] theorem State.outstanding_eq_false_iff (s : State) :
    s.outstanding = false ↔ s.offers = [] ∧ s.enc.st = .idle ∧ s.dec.st = .idle := by
  rw [← Bool.not_eq_true, s.outstanding_iff]
  cases s.enc.st <;> cases s.dec.st <;> simp

theorem hostWaits_advance (s : State) (e : HostEvent) : hostWaits (advance s) e = hostWaits s e := by
  cases e <;> rfl

theorem nextAgent_dec_byte {s : State} {b : Byte} (ha : nextAgent s = .dec) (hr : s.dec.st = .run)
    (hs : (advance s).sourceAnswer = .byte b) :
    step s = exec (decodeChunk b) ((advance s).sourceRead (.byte b)) := by
  simp only [step, ha, agentStep]
  exact decStep_of_run_byte (s := advance s) hr hs

/-- The inversion of `step`. -/
theorem step_next {s t : State} (h : step s = .next t) : StepTo s t := by
  cases ha : nextAgent s with
  | enc =>
    cases hr : s.enc.st with
    | run =>
      rw [step, ha, agentStep, encStep_of_run (s := advance s) hr] at h
      cases h
      exact .encChunk ha hr
    | idle =>
      cases ho : takeOffer (fun w => !opBit w) s.offers with
      | none =>
        rw [step, ha, agentStep, encStep_of_idle_none (s := advance s) hr ho] at h
        cases h
        exact .encRests ha hr ho
      | some x =>
        obtain ⟨w, ws⟩ := x
        rw [step, ha, agentStep, encStep_accepts (s := advance s) hr ho] at h
        cases h
        exact .encAccept w ws ha hr ho
  | dec =>
    cases hr : s.dec.st with
    | run =>
      cases hs : (advance s).sourceAnswer with
      | fail m =>
        rw [step, ha, agentStep, decStep_of_run_fail (s := advance s) hr hs] at h
        cases h
        exact .decFail m ha hr hs
      | byte b =>
        rw [nextAgent_dec_byte ha hr hs] at h
        cases hc : contBit b with
        | true =>
          rw [decodeChunk_of_cont hc, exec, execChunkCont_eq] at h
          by_cases hp : s.dec.pos = 4#3
          · simp only [State.sourceRead_eq, advance_dec, hr, hp, if_true] at h
            cases h
            exact .decMalformed b ha hr hs hc hp
          · simp only [State.sourceRead_eq, advance_dec, hr, hp, if_false] at h
            cases h
            exact .decCont b ha hr hs hc hp
        | false =>
          rw [decodeChunk_of_last hc, exec, execChunkLast_eq] at h
          simp only [State.sourceRead_eq, advance_dec, hr] at h
          cases h
          exact .decLast b ha hr hs hc
    | idle =>
      cases ho : takeOffer opBit s.offers with
      | none =>
        rw [step, ha, agentStep, decStep_of_idle_none (s := advance s) hr ho] at h
        cases h
        exact .decRests ha hr ho
      | some x =>
        obtain ⟨w, ws⟩ := x
        rw [step, ha, agentStep, decStep_accepts (s := advance s) hr ho] at h
        cases h
        exact .decAccept w ws ha hr ho
  | host =>
    rw [step, ha, agentStep, hostStep] at h
    cases hi : s.inputs with
    | nil =>
      simp only [advance_inputs, hi] at h
      cases h
      exact .hostRests ha hi
    | cons e es =>
      simp only [advance_inputs, hi, hostWaits_advance] at h
      cases hw : Machine.hostWaits s e with
      | true =>
        rw [hw] at h
        cases h
        exact .hostWaits e es ha hi hw
      | false =>
        rw [hw] at h
        exact .hostActs t e es ha hi hw h

end Sys2Proof.Machine
end

