-- ==== Sys2Proof/Tests/Slice0.lean ====
section
/-! SUPPORT. The tests: words and single steps whose expected results are rows of spec/95_test_vectors.md, the
well-formedness smoke test, and for every obligation with hypotheses a witness that meets them. -/

namespace Sys2Proof.Tests

open Sys2Proof Sys2Proof.Machine Sys2Proof.Safety

/-! ### Small states -/

/-- ENC in RUN, with the next turn and a sink that gives the listed answers. -/
def encTurn (rem : Pattern) (cnt : Pos) (answers : List SinkAnswer) : State :=
  { State.reset with
    enc := { rem := rem, cnt := cnt, st := .run }
    sink := { content := [], answers := answers, rest := .accepts }
    sched := [.enc] }

/-- DEC in RUN, with the next turn and a source of the listed bytes. -/
def decTurn (acc : Pattern) (pos : Pos) (bytes : List Byte) : State :=
  { State.reset with
    dec := { acc := acc, pos := pos, st := .run }
    source := refSource bytes
    sched := [.dec] }

/-- Both units idle, commands offered, and the next turn an agent's. -/
def offerTurn (a : Agent) (offers : List CmdWord) : State :=
  { State.reset with offers := offers, sched := [a] }

/-- The host's turn, with one event. -/
def hostTurn (e : HostEvent) : State := { State.reset with inputs := [e], sched := [.host] }

/-- What `f` reads of the next state, if there is one. -/
def after {α : Type} (o : Host.Outcome State Fault Refusal) (f : State → α) : Option α :=
  match o with
  | .next t => some (f t)
  | .fault _ => none
  | .refused _ => none

/-! ### Well-formedness and words -/

/-- The one check of WellFormed: values outside 64 bits are refused, the two ends are not (R6). -/
theorem test_wf_range :
    (Instr.encode (2 ^ 63)).wf = false ∧ (Instr.encode (-2 ^ 63 - 1)).wf = false ∧
    (Instr.encode (2 ^ 63 - 1)).wf = true ∧ (Instr.encode (-2 ^ 63)).wf = true := by decide

/-- 2.7: the two commands, junk in the value field of DECODE included. -/
theorem test_decode_cmd :
    decodeCmd 0x0000000000000012C = .encode 300 ∧ decodeCmd 0x0FFFFFFFFFFFFFFFF = .encode (-1) ∧
    decodeCmd 0x10000000000000000 = .decode ∧ decodeCmd 0x1DEADBEEF00000001 = .decode := by decide

/-- R82, R83, 2.6: the two chunk forms at the ends of their ranges. -/
theorem test_decode_chunk :
    decodeChunk 0b10000000 = .chunkCont 0 ∧ decodeChunk 0b11111111 = .chunkCont 0x7F ∧
    decodeChunk 0b00000000 = .chunkLast 0 ∧ decodeChunk 0b01111111 = .chunkLast 0x7F := by decide

/-- 2.7: the encoder's words. -/
theorem test_encode_words :
    encodeWord (.encode (-9223372036854775808)) = .cmd 0x08000000000000000 ∧
    encodeWord .decode = .cmd 0x10000000000000000 ∧
    encodeWord (.chunkCont 0x2C) = .chunk 0xAC ∧ encodeWord (.chunkLast 0x02) = .chunk 0x02 := by decide

/-- A number with bits above its format is no word, and is rejected by name (R80). -/
theorem test_reject_wide :
    wordOfNat .cmd 0x20000000000000000 = .error .widerThanCommand ∧
    wordOfNat .chunk 0x100 = .error .widerThanChunk := ⟨rfl, rfl⟩

/-- The opcode table's numbering, with the widths of its rows. -/
theorem test_table_words :
    decodeTableWord 72 0x0000000000000012C = some (.encode 300) ∧
    decodeTableWord 72 0x10000000000000000 = some .decode ∧
    decodeTableWord 8 0x80 = some (.chunkCont 0) ∧ decodeTableWord 8 0x00 = some (.chunkLast 0) := by decide

/-- 2.7: response words. -/
theorem test_rsp_words :
    encodeRsp 0 (.dec (.ok 300)) = 0x8000000000000012C ∧
    encodeRsp 0 (.enc (.err .sinkWriteError)) = 0x10000000000000000 ∧
    encodeRsp 0 (.dec (.err .malformedEncoding)) = 0xB0000000000000000 ∧
    encodeRsp 0 (.dec (.err .sourceReadError)) = 0xA0000000000000000 := by decide

/-! ### One step of each instruction -/

/-- 2.2: ENC-ACCEPT of 25565. -/
theorem test_encode_accept :
    after (step (offerTurn .enc [0x000000000000063DD])) (fun t => (t.enc, t.offers)) =
      some ({ rem := 0x63DD, cnt := 0, st := .run }, []) := by decide

/-- ENC-CHUNK. 2.2, `ENCODE -1`: at step 2 the shift is logical, at step 5 the bound ends the operation with bits
remaining. 2.3, 25565 with its third write failing: nothing is appended, and the error is the response. -/
theorem test_encode_chunk :
    after (step (encTurn 0x01FFFFFFFFFFFFFF 1 [.ok])) (fun t => (t.enc.rem, t.enc.cnt, t.sink.content)) =
      some (0x0003FFFFFFFFFFFF, 2, [0xFF]) ∧
    after (step (encTurn 0x0000000FFFFFFFFF 4 [.ok])) (fun t => (t.enc, t.sink.content, t.encRsps)) =
      some (Enc.cleared, [0xFF], [.ok]) ∧
    after (step (encTurn 1 2 [.fail []])) (fun t => (t.enc, t.sink.content, t.encRsps)) =
      some (Enc.cleared, [], [.err .sinkWriteError]) := by decide

/-- DEC-ACCEPT past an ENCODE that stays offered (R115, R120); the value field is ignored. -/
theorem test_decode_accept :
    after (step (offerTurn .dec [0x0000000000000012C, 0x1DEADBEEF00000001])) (fun t => (t.dec, t.offers)) =
      some ({ acc := 0, pos := 0, st := .run }, [0x0000000000000012C]) := by decide

/-- 2.5, `0x80 0x80` then the end, step 3. -/
theorem test_decode_source_ends :
    after (step (decTurn 0 2 [])) (fun t => (t.dec, t.source.position, t.decRsps)) =
      some (Dec.cleared, 0, [.err .sourceReadError]) := by decide

/-- 2.6: `0xFF` at position 2. -/
theorem test_chunk_cont_folds :
    after (step (decTurn 0x3FFF 2 [0xFF])) (fun t => t.dec) =
      some { acc := 0x1FFFFF, pos := 3, st := .run } := by decide

/-- 2.6: `0x80` at position 4. -/
theorem test_chunk_cont_malformed :
    after (step (decTurn 0xFFFFFFF 4 [0x80])) (fun t => (t.dec, t.decRsps)) =
      some (Dec.cleared, [.err .malformedEncoding]) := by decide

/-- 2.6: `0x7F` at position 4, the largest result. -/
theorem test_chunk_last_largest :
    after (step (decTurn 0xFFFFFFF 4 [0x7F])) (fun t => (t.dec, t.decRsps)) =
      some (Dec.cleared, [.ok 34359738367]) := by decide

/-- 2.6: `0x00` at position 1, a non-minimal end. -/
theorem test_chunk_last_non_minimal :
    after (step (decTurn 0x7F 1 [0x00])) (fun t => t.decRsps) = some [.ok 127] := by decide

/-- 2.9: RESET with a DECODE in progress: no response, and the source stays one byte on. -/
theorem test_reset_abandons :
    after (step { hostTurn .reset with
      dec := { acc := 0x7F, pos := 1, st := .run }, source := { refSource [] with position := 1 } })
      (fun t => (t.dec, t.decRsps, t.source.position)) = some (Dec.cleared, [], 1) := by decide

/-- R98 and Program 6: RESET falls in the middle of the operation of the `||` line before it; a line after an ENCODE waits
for its response, and the line after a `||` line does not. -/
theorem test_program_lines :
    after (step { encTurn 0x80 1 [] with inputs := commandEvents .both [.reset, .encode 5], sched := [.host] })
      (fun t => (t.enc, t.encRsps, t.inputs)) = some (Enc.cleared, [], [.await, .issue 5]) ∧
    after (step { encTurn 0x80 1 [] with inputs := commandEvents .enc [.encode 5], sched := [.host] })
      (fun t => t.inputs) = some [.awaitEnc, .issue 5] ∧
    after (step { encTurn 0x80 1 [] with inputs := commandEvents .both [.encode 5], sched := [.host] })
      (fun t => (t.inputs, t.offers)) = some ([], [5]) := by decide

/-- R98: the sink that fails at the program's second write is attached first, wherever its line stands. -/
theorem test_program_environment :
    programEvents [.source [0x80], .encode 5, .sinkFailAt 2, .source [0x01], .decode] =
      [.await, .attachSink { content := [], answers := [.ok, .fail []], rest := .accepts },
        .attachSource { position := 0, answers := [.byte 0x80, .byte 0x01], rest := .ends },
        .issue 5, .awaitEnc, .issue 0x10000000000000000] := by decide

/-- 2.1: rows of the closed form, at the ends of `VALID` and beyond. -/
theorem test_enc_bytes :
    encBytes 0 = [0x00] ∧ encBytes 25565 = [0xDD, 0xC7, 0x01] ∧
    encBytes 34359738367 = [0xFF, 0xFF, 0xFF, 0xFF, 0x7F] ∧
    encBytes 81985529216486895 = [0xEF, 0x9B, 0xAF, 0xCD, 0xF8] ∧
    encBytes (-2147483648) = [0x80, 0x80, 0x80, 0x80, 0xF8] := by decide

/-- The host's placement of a word: from reset, the next step runs it. -/
theorem test_placed_words_run :
    after (step (State.reset.withFetchWord 72 0x0000000000000012C)) (fun t => t.enc.rem) = some 300 ∧
    after (step (State.reset.withFetchWord 72 0x10000000000000000)) (fun t => t.dec.st) = some .run ∧
    after (step (State.reset.withFetchWord 8 0x81)) (fun t => t.dec.acc) = some 1 ∧
    after (step (State.reset.withFetchWord 8 0x05)) (fun t => t.decRsps) = some [.ok 5] := by decide

/-! ### Witnesses: states and operands that meet the hypotheses of each obligation -/

theorem witness_DecodeOfEncodeIsTheInstruction : (Instr.encode (-2 ^ 63)).wf = true ∧ Instr.decode.wf = true ∧
    (Instr.chunkCont 0x7F).wf = true ∧ (Instr.chunkLast 0).wf = true := by decide

theorem witness_EncodeOfDecodeIsTheWord :
    (0x0FFFFFFFFFFFFFFFF : CmdWord).toNat < 2 ^ 64 ∧ 2 ^ 64 ≤ (0x10000000000000000 : CmdWord).toNat := by decide

theorem witness_WordsSelectedByMatchAndMask :
    (0x1FFFFFFFFFFFFFFFF : CmdWord) &&& 0x10000000000000000 = 0x10000000000000000 ∧
    (0x08000000000000000 : CmdWord) &&& 0x10000000000000000 = 0x00000000000000000 ∧
    (0x80 : Byte) &&& 0x80 = 0x80 ∧ (0x7F : Byte) &&& 0x80 = 0x00 := by decide

theorem witness_ResponseWordLayoutAndReading :
    (Rsp.dec (.ok (-2 ^ 63))).wf = true ∧ 5 ≤ (0xD0000000000000000 : RspWord).toNat / 2 ^ 64 % 8 := by decide

theorem witness_ReinterpretationsAreInverseBijections :
    inValueRange (-2 ^ 63) = true ∧ inValueRange (2 ^ 63 - 1) = true := by decide

theorem witness_ValidIsPatternBelow35Bits : inValueRange 34359738368 = true ∧ inValueRange (-1) = true ∧
    (-1 : Int) < 0 := by decide

theorem witness_EncodeAcceptedByIdleEnc : State.reset.enc.st = .idle := rfl

theorem witness_EncodeOfferConsumedOnAcceptance :
    let s := offerTurn .enc [0x10000000000000000, 0x0FFFFFFFFFFFFFFFF, 5]
    nextAgent s = .enc ∧ s.enc.st = .idle ∧ s.offers = [0x10000000000000000] ++ 0x0FFFFFFFFFFFFFFFF :: [5] ∧
      (∀ x ∈ [(0x10000000000000000 : CmdWord)], 2 ^ 64 ≤ x.toNat) ∧
      (0x0FFFFFFFFFFFFFFFF : CmdWord).toNat < 2 ^ 64 :=
  ⟨rfl, rfl, rfl, fun x hx => by rw [List.mem_singleton.1 hx]; decide, by decide⟩

theorem witness_DecodeAcceptedByIdleDec : State.reset.dec.st = .idle := rfl

theorem witness_DecodeOfferConsumedOnAcceptance :
    let s := offerTurn .dec [0x0FFFFFFFFFFFFFFFF, 0x10000000000000000, 5]
    nextAgent s = .dec ∧ s.dec.st = .idle ∧ s.offers = [0x0FFFFFFFFFFFFFFFF] ++ 0x10000000000000000 :: [5] ∧
      (∀ x ∈ [(0x0FFFFFFFFFFFFFFFF : CmdWord)], x.toNat < 2 ^ 64) ∧
      2 ^ 64 ≤ (0x10000000000000000 : CmdWord).toNat :=
  ⟨rfl, rfl, rfl, fun x hx => by rw [List.mem_singleton.1 hx]; decide, by decide⟩

/-- One state for each clause: both commands to a running unit, and a turn of each running unit. -/
theorem witness_RunningUnitHoldsTheCommand :
    (encTurn 1 4 []).enc.st = .run ∧ (decTurn 1 4 [0]).dec.st = .run ∧
    (nextAgent (encTurn 1 4 []) = .enc ∧ ∃ t, step (encTurn 1 4 []) = .next t) ∧
    (nextAgent (decTurn 1 4 [0]) = .dec ∧ ∃ t, step (decTurn 1 4 [0]) = .next t) :=
  ⟨rfl, rfl, ⟨rfl, _, rfl⟩, ⟨rfl, _, rfl⟩⟩

theorem witness_CommandFrames :
    ((∃ t, exec (.encode (-1)) State.reset = .next t) ∧ State.reset.enc.st = .idle) ∧
    ((∃ t, exec (.encode 0) (encTurn 1 4 []) = .next t) ∧ (encTurn 1 4 []).enc.st = .run) ∧
    ((∃ t, exec .decode State.reset = .next t) ∧ State.reset.dec.st = .idle) ∧
    ((∃ t, exec .decode (decTurn 1 4 []) = .next t) ∧ (decTurn 1 4 []).dec.st = .run) :=
  ⟨⟨⟨_, rfl⟩, rfl⟩, ⟨⟨_, rfl⟩, rfl⟩, ⟨⟨_, rfl⟩, rfl⟩, ⟨⟨_, rfl⟩, rfl⟩⟩

/-- The last chunk by the flag, the last by the bound, a chunk that goes on at the last position that may, a failure. -/
theorem witness_EncChunkStep :
    (let s := encTurn 127 0 []
     nextAgent s = .enc ∧ s.enc.st = .run ∧ (advance s).sinkAnswer = .ok ∧ s.enc.rem.toNat / 128 = 0) ∧
    (let s := encTurn 128 4 []
     nextAgent s = .enc ∧ s.enc.st = .run ∧ (advance s).sinkAnswer = .ok ∧ s.enc.cnt = 4) ∧
    (let s := encTurn 128 3 []
     nextAgent s = .enc ∧ s.enc.st = .run ∧ (advance s).sinkAnswer = .ok ∧ s.enc.rem.toNat / 128 ≠ 0 ∧
        s.enc.cnt ≠ 4) ∧
    (let s := encTurn 128 4 [.fail [0x80]]
     nextAgent s = .enc ∧ s.enc.st = .run ∧ (advance s).sinkAnswer = .fail [0x80]) := by decide

theorem witness_EncodeWritesItsBytesAndResponds :
    let s : State := { State.reset with
      sink := { content := [7], answers := List.replicate 5 .ok, rest := .free }
      sched := List.replicate 5 .enc ++ [.host] }
    s.enc.st = .idle ∧ s.sink.answers = List.replicate (encLen (u64 (-1))) .ok ++ [] ∧
      s.sched = List.replicate (encLen (u64 (-1))) .enc ++ [.host] := ⟨rfl, rfl, rfl⟩

theorem witness_EncodeEndsAtTheFailedWrite :
    let s : State := { State.reset with
      sink := { content := [7], answers := [.ok, .fail [9], .ok], rest := .free }
      sched := [.enc, .enc, .host] }
    s.enc.st = .idle ∧ 1 < encLen (u64 300) ∧ s.sink.answers = List.replicate 1 .ok ++ .fail [9] :: [.ok] ∧
      s.sched = List.replicate (1 + 1) .enc ++ [.host] := ⟨rfl, by decide, rfl, rfl⟩

/-- ENCODE 16384 after its first byte (2.9), with a turn of ENC whose write is accepted. -/
theorem witness_EncodeProgress_goes_on :
    let s : State := { encTurn 0x80 1 [.ok] with sink := { content := [7, 0x80], answers := [.ok], rest := .free } }
    (∃ t, step s = .next t) ∧ EncProgress 16384 [7] 1 s ∧ nextAgent s = .enc ∧ (advance s).sinkAnswer = .ok ∧
      1 + 1 < encLen (u64 16384) :=
  ⟨⟨_, rfl⟩, by unfold EncProgress; decide, rfl, rfl, by decide⟩

/-- The same ENCODE at its last byte, accepted. -/
theorem witness_EncodeProgress_ends :
    let s : State := { encTurn 1 2 [] with sink := { content := [0x80, 0x80], answers := [.ok], rest := .free } }
    (∃ t, step s = .next t) ∧ EncProgress 16384 [] 2 s ∧ nextAgent s = .enc ∧ (advance s).sinkAnswer = .ok ∧
      2 + 1 = encLen (u64 16384) :=
  ⟨⟨_, rfl⟩, by unfold EncProgress; decide, rfl, rfl, by decide⟩

/-- The same ENCODE with its first write failing. -/
theorem witness_EncodeProgress_fails :
    let s := encTurn 16384 0 [.fail []]
    (∃ t, step s = .next t) ∧ EncProgress 16384 [] 0 s ∧ nextAgent s = .enc ∧
      (advance s).sinkAnswer = .fail [] :=
  ⟨⟨_, rfl⟩, by unfold EncProgress; decide, rfl, rfl⟩

/-- The same ENCODE on a turn of DEC, and on the host's turn with RESET next. -/
theorem witness_EncodeProgress_other_turns :
    (let s : State := { encTurn 16384 0 [] with sched := [.dec] }
     (∃ t, step s = .next t) ∧ EncProgress 16384 [] 0 s ∧ nextAgent s ≠ .enc ∧ ¬ resetNow s) ∧
    (let s : State := { encTurn 16384 0 [] with sched := [.host], inputs := [.reset] }
     (∃ t, step s = .next t) ∧ EncProgress 16384 [] 0 s ∧ resetNow s) :=
  ⟨⟨⟨_, rfl⟩, by unfold EncProgress; decide, by decide, by unfold resetNow; decide⟩,
    ⟨⟨_, rfl⟩, by unfold EncProgress; decide, by unfold resetNow; decide⟩⟩

theorem witness_ChunkBitsArePatternBits : 4 < encLen 0xFFFFFFFFFFFFFFFF ∧ 0 < encLen 0 ∧ 6 < 7 := by decide

/-- The ends of the five ranges. -/
theorem witness_EncodedLengthByRange :
    (inValueRange 127 = true ∧ (u64 127).toNat < 2 ^ 7) ∧
    (2 ^ 7 ≤ (u64 128).toNat ∧ (u64 16383).toNat < 2 ^ 14) ∧
    (2 ^ 14 ≤ (u64 16384).toNat ∧ (u64 2097151).toNat < 2 ^ 21) ∧
    (2 ^ 21 ≤ (u64 2097152).toNat ∧ (u64 268435455).toNat < 2 ^ 28) ∧
    (inValueRange (-1) = true ∧ 2 ^ 28 ≤ (u64 268435456).toNat ∧ 2 ^ 28 ≤ (u64 (-1)).toNat) ∧
    valid 34359738367 ∧ (encBytes 0).getLast? = some 0x00 ∧ (encBytes (-1)).getLast? = some 0xFF := by decide

theorem witness_EncodedBytesContinueCorrectly :
    (inValueRange 34359738367 = true ∧ valid 34359738367) ∧
    (inValueRange 34359738368 = true ∧ ¬ valid 34359738368) := by decide

theorem witness_EncodedBytesAreMinimal : valid 0 ∧ valid 34359738367 ∧ (encBytes 0).getLast? = some 0x00 := by decide

/-- 2.8: `2^35 + 5` and `2^42 + 5` have the same low 35 bits. -/
theorem witness_EncodeOutsideValid :
    inValueRange 34359738373 = true ∧ ¬ valid 34359738373 ∧ inValueRange 4398046511109 = true ∧
    ¬ valid 4398046511109 ∧ (u64 34359738373).toNat % 2 ^ 35 = (u64 4398046511109).toNat % 2 ^ 35 := by decide

theorem witness_EncodeInjectiveOnValidOnly : valid 300 ∧ encBytes 300 = encBytes 300 := by decide

theorem witness_EncodeBoundedByFiveChunks :
    let s := encTurn 128 3 []
    EncOk s.enc ∧ s.enc.st = .run ∧ nextAgent s = .enc ∧ ∃ t, step s = .next t :=
  ⟨⟨by decide, by decide, fun _ => by decide⟩, rfl, rfl, _, rfl⟩

/-- The positions at which the two clauses meet. -/
theorem witness_ChunkContMeaning :
    ((decTurn 0 3 []).dec.st = .run ∧ (decTurn 0 3 []).dec.pos.toNat ≤ 3) ∧
    ((decTurn 0 4 []).dec.st = .run ∧ (decTurn 0 4 []).dec.pos.toNat = 4) := by decide

theorem witness_ChunkLastMeaning : (decTurn 0 4 []).dec.st = .run := rfl

theorem witness_IdleDecInterpretsNoChunk : State.reset.dec.st = .idle := rfl

theorem witness_ChunkFormFrames :
    (∃ t, exec (.chunkCont 1) (decTurn 0 4 []) = .next t) ∧
    (∃ t, exec (.chunkLast 1) (decTurn 0 4 []) = .next t) ∧ (decTurn 0 4 []).dec.st = .run :=
  ⟨⟨_, rfl⟩, ⟨_, rfl⟩, rfl⟩

theorem witness_StepRunsTheDecodedInstruction :
    (let s := offerTurn .enc [0x10000000000000000, 5]
     nextAgent s = .enc ∧ s.enc.st = .idle ∧
        takeOffer (fun x => !opBit x) s.offers = some (5, [0x10000000000000000])) ∧
    (let s := offerTurn .dec [5, 0x10000000000000000]
     nextAgent s = .dec ∧ s.dec.st = .idle ∧ takeOffer opBit s.offers = some (0x10000000000000000, [5])) ∧
    (let s := decTurn 0 0 [0x80]
     nextAgent s = .dec ∧ s.dec.st = .run ∧ (advance s).sourceAnswer = .byte 0x80) := by decide

theorem witness_FailedReadRaisesSourceReadError :
    let s := decTurn 0 4 []
    nextAgent s = .dec ∧ s.dec.st = .run ∧ (advance s).sourceAnswer = .fail 0 := by decide

theorem witness_MalformedOnlyOnContinuingFifthByte :
    (decTurn 0 4 []).dec.st = .run ∧ (decTurn 0 4 []).dec.pos.toNat ≤ 4 := by decide

theorem witness_FoldInsertsTheGroup : (4 : Pos).toNat ≤ 4 ∧ (0xFFFFFFF : Pattern).toNat < 2 ^ (7 * (4 : Pos).toNat) ∧
    6 < 7 ∧ 7 * (4 : Pos).toNat + 7 ≤ 35 := by decide

/-- A script that covers the reads, five continuing bytes or one answer; and one after which the stream ends (2.4:
`0x80`, then the end, and the empty source). -/
theorem witness_DecodeRespondsWithDec :
    (let script := List.replicate 5 (SourceAnswer.byte 0xFF)
     let s : State := { State.reset with
       source := { position := 3, answers := script, rest := .free }, sched := List.replicate 5 .dec ++ [.host] }
     s.dec.st = .idle ∧ s.source.answers = script ∧ decReads (fun k => script.getD k (.fail 0)) ≤ script.length ∧
       s.sched = List.replicate (decReads fun k => script.getD k (.fail 0)) .dec ++ [.host]) ∧
    (let script := [SourceAnswer.byte 0x7F]
     let s : State := { State.reset with
       source := { position := 3, answers := script, rest := .free }, sched := [.dec, .host] }
     s.dec.st = .idle ∧ s.source.answers = script ∧ decReads (fun k => script.getD k (.fail 0)) ≤ script.length ∧
       s.sched = List.replicate (decReads fun k => script.getD k (.fail 0)) .dec ++ [.host]) ∧
    (let script := [SourceAnswer.byte 0x80]
     let s : State := { State.reset with source := refSource [0x80], sched := [.dec, .dec, .host] }
     s.dec.st = .idle ∧ s.source.answers = script ∧ s.source.rest = .ends ∧
       s.sched = List.replicate (decReads fun k => script.getD k (.fail 0)) .dec ++ [.host]) ∧
    (let script : List SourceAnswer := []
     let s : State := { State.reset with source := refSource [], sched := [.dec, .host] }
     s.dec.st = .idle ∧ s.source.answers = script ∧ s.source.rest = .ends ∧
       s.sched = List.replicate (decReads fun k => script.getD k (.fail 0)) .dec ++ [.host]) := by decide

/-- `0xFF` read, and a second byte that continues, one that ends it, or a failure. -/
theorem witness_DecodeProgress_second_read :
    (let s : State := { decTurn 0x7F 1 [] with
        source := { position := 1, answers := [.byte 0x80], rest := .ends } }
     (∃ t, step s = .next t) ∧ DecProgress 0 [0xFF] s ∧ nextAgent s = .dec ∧
        (advance s).sourceAnswer = .byte 0x80 ∧ 128 ≤ (0x80 : Byte).toNat ∧ [(0xFF : Byte)].length < 4) ∧
    (let s : State := { decTurn 0x7F 1 [] with
        source := { position := 1, answers := [.byte 0x7F], rest := .ends } }
     (∃ t, step s = .next t) ∧ DecProgress 0 [0xFF] s ∧ nextAgent s = .dec ∧
        (advance s).sourceAnswer = .byte 0x7F ∧ (0x7F : Byte).toNat < 128) ∧
    (let s : State := { decTurn 0x7F 1 [] with
        source := { position := 1, answers := [.fail 2], rest := .ends } }
     (∃ t, step s = .next t) ∧ DecProgress 0 [0xFF] s ∧ nextAgent s = .dec ∧
        (advance s).sourceAnswer = .fail 2) :=
  ⟨⟨⟨_, rfl⟩, by unfold DecProgress; decide, rfl, rfl, by decide⟩,
    ⟨⟨_, rfl⟩, by unfold DecProgress; decide, rfl, rfl, by decide⟩,
    ⟨⟨_, rfl⟩, by unfold DecProgress; decide, rfl, rfl⟩⟩

/-- Four continuing bytes read, and a fifth that continues. -/
theorem witness_DecodeProgress_fifth_read :
    let s : State := { decTurn 0xFFFFFFF 4 [] with
      source := { position := 4, answers := [.byte 0x80], rest := .ends } }
    (∃ t, step s = .next t) ∧ DecProgress 0 [0xFF, 0xFF, 0xFF, 0xFF] s ∧ nextAgent s = .dec ∧
      (advance s).sourceAnswer = .byte 0x80 ∧ 128 ≤ (0x80 : Byte).toNat ∧
      [(0xFF : Byte), 0xFF, 0xFF, 0xFF].length = 4 :=
  ⟨⟨_, rfl⟩, by unfold DecProgress; decide, rfl, rfl, by decide⟩

/-- A DECODE in progress on a turn of ENC, and on the host's turn with RESET next. -/
theorem witness_DecodeProgress_other_turns :
    (let s : State := { decTurn 0 0 [] with sched := [.enc] }
     (∃ t, step s = .next t) ∧ DecProgress 0 [] s ∧ nextAgent s ≠ .dec ∧ ¬ resetNow s) ∧
    (let s : State := { decTurn 0 0 [] with sched := [.host], inputs := [.reset] }
     (∃ t, step s = .next t) ∧ DecProgress 0 [] s ∧ resetNow s) :=
  ⟨⟨⟨_, rfl⟩, by unfold DecProgress; decide, by decide, by unfold resetNow; decide⟩,
    ⟨⟨_, rfl⟩, by unfold DecProgress; decide, by unfold resetNow; decide⟩⟩

/-- 2.4: a value after five reads, malformed, and a failure at position 4. -/
theorem witness_DecodeConsumesByOutcome :
    decOutcome (fun k => .byte ([0xFF, 0xFF, 0xFF, 0xFF].getD k 0x0F)) = (.ok 4294967295, 5) ∧
    decOutcome (fun _ => .byte 0x80) = (.err .malformedEncoding, 5) ∧
    decOutcome (fun k => if k < 4 then .byte 0xFF else .fail 0) = (.err .sourceReadError, 4) := by decide

theorem witness_DecodedValueIsInValid :
    decOutcome (fun _ => .byte 0x7F) = (.ok 127, 1) ∧
    (let s := decTurn 0xFFFFFFF 4 [0x7F]
     CoreInv s ∧ ∃ t, step s = .next t ∧ .ok 34359738367 ∈ t.decRsps) := by
  refine ⟨by decide, ?_, _, rfl, ?_⟩
  · refine ⟨?_, ?_, ?_, ?_⟩
    · exact ⟨rfl, rfl⟩
    · exact ⟨by decide, by decide⟩
    · intro r hr; cases hr
    · intro r hr; cases hr
  · exact List.mem_singleton.2 (by decide)

theorem witness_EveryWellFormedEncodingDecodes :
    wellFormedEncoding [0x81, 0x80, 0x00] = true ∧
    ∀ p, p < [(0x81 : Byte), 0x80, 0x00].length →
      SourceAnswer.byte ([(0x81 : Byte), 0x80, 0x00].getD p 0) = .byte ([(0x81 : Byte), 0x80, 0x00].getD p 0) :=
  ⟨by decide, fun _ _ => rfl⟩

theorem witness_DenotedValueOfWellFormed : wellFormedEncoding [0xFF, 0xFF, 0xFF, 0xFF, 0x7F] = true ∧
    4 < [(0xFF : Byte), 0xFF, 0xFF, 0xFF, 0x7F].length ∧ 6 < 7 ∧
    7 * [(0xFF : Byte), 0xFF, 0xFF, 0xFF, 0x7F].length ≤ 35 := by decide

theorem witness_WellFormedEncodingsArePrefixFree : wellFormedEncoding [0x80, 0x01] = true ∧
    ∃ cs, [(0x80 : Byte), 0x01] = [0x80, 0x01] ++ cs := ⟨by decide, [], rfl⟩

theorem witness_RoundTripOnValid : valid 34359738367 ∧
    ∀ p, p < (encBytes 34359738367).length →
      SourceAnswer.byte ((encBytes 34359738367).getD p 0) = .byte ((encBytes 34359738367).getD p 0) :=
  ⟨by decide, fun _ _ => rfl⟩

theorem witness_EncodedOutsideValidIsRejected : inValueRange (-1) = true ∧ ¬ valid (-1) ∧
    ∀ p, p < 5 → SourceAnswer.byte ((encBytes (-1)).getD p 0) = .byte ((encBytes (-1)).getD p 0) :=
  ⟨by decide, by decide, fun _ _ => rfl⟩

/-- A minimal encoding, and one that is not: `0x80 0x00` denotes what `0x00` denotes. -/
theorem witness_ReencodingGivesBackMinimalOnly :
    wellFormedEncoding [0xAC, 0x02] = true ∧ wellFormedEncoding [0x80, 0x00] = true ∧
    ¬ minimalEncoding [0x80, 0x00] :=
  ⟨by decide, by decide, fun h => absurd (h.2 [0x00] (by decide) (by decide)) (by decide)⟩

theorem witness_MachineRoundTripThroughLoopback :
    let s : State := { State.reset with
      sink := refSinkOk, source := refLoopback, offers := [cmdWord false (u64 300), cmdWord true 1]
      sched := List.replicate 3 .enc ++ List.replicate 3 .dec ++ [.host] }
    valid 300 ∧ s.enc.st = .idle ∧ s.dec.st = .idle ∧
      s.offers = [cmdWord false (u64 300), cmdWord true 1] ∧ s.sink.answers = [] ∧ s.sink.rest = .accepts ∧
      s.source.answers = [] ∧ s.source.rest = .loopback ∧ s.source.position = s.sink.content.length ∧
      s.sched = List.replicate (encLen (u64 300) + 1) .enc ++ List.replicate (encLen (u64 300) + 1) .dec ++ [.host] := by
  decide

theorem witness_InvariantKeptByEveryStep :
    let s := encTurn 0x0000000FFFFFFFFF 4 []
    CoreInv s ∧ ∃ t, step s = .next t := by
  refine ⟨⟨?_, ?_, ?_, ?_⟩, _, rfl⟩
  · exact ⟨by decide, by decide, fun _ => by decide⟩
  · exact ⟨rfl, rfl⟩
  · intro r hr; cases hr
  · intro r hr; cases hr

theorem witness_ResetEventClearsCore : nextAgent (hostTurn .reset) = .host ∧ (hostTurn .reset).inputs = .reset :: [] ∧
    ∃ t, step (hostTurn .reset) = .next t := ⟨rfl, rfl, _, rfl⟩

theorem witness_MaxSizeIsHardwired : ∃ t, step (hostTurn .reset) = .next t := ⟨_, rfl⟩

theorem witness_UnitTurnsLeaveTheOtherUnit :
    (nextAgent (encTurn 1 0 []) = .enc ∧ ∃ t, step (encTurn 1 0 []) = .next t) ∧
    (nextAgent (decTurn 1 1 [0]) = .dec ∧ ∃ t, step (decTurn 1 1 [0]) = .next t) :=
  ⟨⟨rfl, _, rfl⟩, ⟨rfl, _, rfl⟩⟩

/-- Both units in RUN, each with an answer waiting; a sink that accepts and a source that has ended; a loopback with a
byte to read; both units idle. -/
theorem witness_UnitTurnsCommute :
    (let s : State := { encTurn 300 0 [.ok] with
       dec := { acc := 0, pos := 0, st := .run }, source := refSource [0x80] }
     s.sink.answers ≠ [] ∧ s.source.answers ≠ []) ∧
    (let s : State := { encTurn 300 0 [] with dec := { acc := 0, pos := 0, st := .run }, source := refSource [] }
     s.sink.rest = .accepts ∧ s.source.rest = .ends) ∧
    (let s : State := { encTurn 300 1 [] with
       dec := { acc := 0, pos := 0, st := .run }, source := refLoopback
       sink := { refSinkOk with content := [0xAC] } }
     s.sink.rest = .accepts ∧ s.source.rest = .loopback ∧ s.source.position < s.sink.content.length) ∧
    (State.reset.enc.st = .idle ∧ State.reset.dec.st = .idle) := by decide

theorem witness_OnlyABrokenDutyStops :
    let s : State := { hostTurn .foreignRead with dec := { acc := 0, pos := 0, st := .run } }
    ∃ r, step s = .refused r := ⟨_, rfl⟩

/-- A turn that ends an operation, and one that does not, of each unit. -/
theorem witness_OneResponseWhenAnOperationEnds :
    (let s := encTurn 1 0 []
     nextAgent s = .enc ∧ ∃ t, step s = .next t ∧ s.enc.st = .run ∧ t.enc.st = .idle) ∧
    (let s := encTurn 128 0 []
     nextAgent s = .enc ∧ ∃ t, step s = .next t ∧ ¬ (s.enc.st = .run ∧ t.enc.st = .idle)) ∧
    (let s := decTurn 0 0 [0x01]
     nextAgent s = .dec ∧ ∃ t, step s = .next t ∧ s.dec.st = .run ∧ t.dec.st = .idle) ∧
    (let s := decTurn 0 0 [0x81]
     nextAgent s = .dec ∧ ∃ t, step s = .next t ∧ ¬ (s.dec.st = .run ∧ t.dec.st = .idle)) :=
  ⟨⟨rfl, _, rfl, by decide⟩, ⟨rfl, _, rfl, by decide⟩, ⟨rfl, _, rfl, by decide⟩, ⟨rfl, _, rfl, by decide⟩⟩

/-- A state no run reaches, with such a response already there. -/
theorem witness_ReinterpretationErrorIsNeverRaised :
    let s : State := { encTurn 1 0 [] with
      encRsps := [.err .reinterpretationError], decRsps := [.err .reinterpretationError] }
    ∃ t, step s = .next t ∧ .err .reinterpretationError ∈ t.encRsps ∧
      .err .reinterpretationError ∈ t.decRsps :=
  ⟨_, rfl, by decide, by decide⟩

theorem witness_StreamsOnlyAdvance :
    (let s := encTurn 1 0 []
     nextAgent s = .enc ∧ s.enc.st = .run ∧ (advance s).sinkAnswer = .ok ∧ (∃ t, step s = .next t) ∧
        ∀ k es, s.inputs ≠ .attachSink k :: es) ∧
    (let s := decTurn 0 0 [0x01]
     nextAgent s = .dec ∧ s.dec.st = .run ∧ (advance s).sourceAnswer = .byte 0x01 ∧ (∃ t, step s = .next t) ∧
        ∀ c es, s.inputs ≠ .attachSource c :: es) :=
  ⟨⟨rfl, rfl, rfl, ⟨_, rfl⟩, fun _ _ h => by cases h⟩, ⟨rfl, rfl, rfl, ⟨_, rfl⟩, fun _ _ h => by cases h⟩⟩

/-- Each unit idle, and only the other's command offered. -/
theorem witness_IdleUnitWithoutOfferDoesNothing :
    (let s := offerTurn .enc [0x10000000000000000]
     nextAgent s = .enc ∧ s.enc.st = .idle ∧ ∀ w ∈ s.offers, 2 ^ 64 ≤ w.toNat) ∧
    (let s := offerTurn .dec [0x0FFFFFFFFFFFFFFFF]
     nextAgent s = .dec ∧ s.dec.st = .idle ∧ ∀ w ∈ s.offers, w.toNat < 2 ^ 64) :=
  ⟨⟨rfl, rfl, fun x hx => by rw [List.mem_singleton.1 hx]; decide⟩,
    ⟨rfl, rfl, fun x hx => by rw [List.mem_singleton.1 hx]; decide⟩⟩

theorem witness_StreamsAttachedBetweenOperationsOnly :
    (let s := hostTurn (.attachSink refSinkOk)
     nextAgent s = .host ∧ s.inputs = .attachSink refSinkOk :: [] ∧ s.enc.st = .idle) ∧
    (let s : State := { hostTurn (.attachSink refSinkOk) with enc := { rem := 1, cnt := 0, st := .run } }
     nextAgent s = .host ∧ s.inputs = .attachSink refSinkOk :: [] ∧ s.enc.st = .run) ∧
    (let s := hostTurn (.attachSource refLoopback)
     nextAgent s = .host ∧ s.inputs = .attachSource refLoopback :: [] ∧ s.dec.st = .idle) ∧
    (let s : State := { hostTurn (.attachSource refLoopback) with dec := { acc := 0, pos := 0, st := .run } }
     nextAgent s = .host ∧ s.inputs = .attachSource refLoopback :: [] ∧ s.dec.st = .run) := by decide

theorem witness_HostIssuesAndTakesInOrder :
    (nextAgent (hostTurn (.issue 5)) = .host ∧ (hostTurn (.issue 5)).inputs = .issue 5 :: []) ∧
    (let s : State := { hostTurn .takeEnc with encRsps := [.ok, .err .sinkWriteError] }
     nextAgent s = .host ∧ s.inputs = .takeEnc :: [] ∧ s.encRsps = .ok :: [.err .sinkWriteError]) ∧
    ((hostTurn .takeEnc).inputs = .takeEnc :: [] ∧ (hostTurn .takeEnc).encRsps = []) ∧
    (let s : State := { hostTurn .takeDec with decRsps := [.ok 1, .ok 2] }
     nextAgent s = .host ∧ s.inputs = .takeDec :: [] ∧ s.decRsps = .ok 1 :: [.ok 2]) ∧
    ((hostTurn .takeDec).inputs = .takeDec :: [] ∧ (hostTurn .takeDec).decRsps = []) ∧
    (let s := hostTurn .await
     nextAgent s = .host ∧ s.inputs = .await :: [] ∧ s.offers = [] ∧ s.enc.st = .idle ∧ s.dec.st = .idle) ∧
    (let s : State := { hostTurn .await with dec := { acc := 0, pos := 0, st := .run } }
     nextAgent s = .host ∧ s.inputs = .await :: [] ∧ s.dec.st = .run) ∧
    (let s : State := { hostTurn .awaitEnc with offers := [], dec := { acc := 0, pos := 0, st := .run } }
     nextAgent s = .host ∧ s.inputs = .awaitEnc :: [] ∧ s.offers = [] ∧ s.enc.st = .idle) ∧
    (let s : State := { hostTurn .awaitEnc with enc := { rem := 1, cnt := 0, st := .run } }
     nextAgent s = .host ∧ s.inputs = .awaitEnc :: [] ∧ s.enc.st = .run) ∧
    (let s : State := { hostTurn .awaitDec with enc := { rem := 1, cnt := 0, st := .run } }
     nextAgent s = .host ∧ s.inputs = .awaitDec :: [] ∧ s.offers = [] ∧ s.dec.st = .idle) ∧
    (let s : State := { hostTurn .awaitDec with dec := { acc := 0, pos := 0, st := .run } }
     nextAgent s = .host ∧ s.inputs = .awaitDec :: [] ∧ s.dec.st = .run) := by decide

/-- The three waits, an issue after each kind of line, and a RESET with an operation in progress. -/
theorem witness_ProgramLinesIssueInOrder :
    inValueRange 16384 = true ∧ Before.enc ≠ .both ∧ lineWords (.both 5) ≠ [] ∧
    (let s : State := { encTurn 0x80 1 [] with inputs := lineEvents .enc (.encode 5), sched := [.host] }
     nextAgent s = .host ∧ s.inputs = lineEvents .enc (.encode 5) ++ [] ∧ s.enc.st = .run) ∧
    (let s : State := { decTurn 0 1 [] with inputs := lineEvents .dec .decode, sched := [.host] }
     nextAgent s = .host ∧ s.inputs = lineEvents .dec .decode ++ [] ∧ s.dec.st = .run) ∧
    (let s : State := { decTurn 0 1 [] with inputs := lineEvents .bothThenReset (.both 5), sched := [.host] }
     nextAgent s = .host ∧ s.inputs = lineEvents .bothThenReset (.both 5) ++ [] ∧ s.dec.st = .run) ∧
    (let s : State := { encTurn 0x80 1 [] with inputs := lineEvents .both (.encode 5) ++ [.reset], sched := [.host] }
     s.inputs = lineEvents .both (.encode 5) ++ [.reset] ∧
       s.sched = List.replicate (0 + (lineWords (.encode 5)).length) .host ++ []) ∧
    (let s : State := { decTurn 0 1 [] with inputs := lineEvents .enc (.both 5), sched := [.host, .host, .host] }
     s.inputs = lineEvents .enc (.both 5) ++ [] ∧ s.offers = [] ∧ s.enc.st = .idle ∧
       s.sched = List.replicate (1 + (lineWords (.both 5)).length) .host ++ []) ∧
    (let s : State := { encTurn 0 1 [] with inputs := lineEvents .dec .decode, sched := [.host, .host] }
     s.inputs = lineEvents .dec .decode ++ [] ∧ s.offers = [] ∧ s.dec.st = .idle ∧
       s.sched = List.replicate (1 + (lineWords .decode).length) .host ++ []) ∧
    (let s : State := { State.reset with inputs := lineEvents .bothThenReset .decode, sched := [.host, .host] }
     s.inputs = lineEvents .bothThenReset .decode ++ [] ∧ s.offers = [] ∧ s.enc.st = .idle ∧ s.dec.st = .idle ∧
       s.sched = List.replicate (1 + (lineWords .decode).length) .host ++ []) ∧
    (let s : State := { encTurn 0x80 1 [] with inputs := commandEvents .enc [.reset, .encode 5], sched := [.host] }
     nextAgent s = .host ∧ s.inputs = lineEvents .enc .reset ++ lineEvents .enc (.encode 5)) := by decide

/-- Lines of each kind, a program that waits with a command outstanding, and one that attaches both streams. -/
theorem witness_ProgramEnvironmentAttachedFirst :
    ((∀ k, ProgramLine.sinkFailAt k ∉ [ProgramLine.decode]) ∧ ProgramLine.sinkOk ∉ [ProgramLine.decode]) ∧
    ((∀ c, ProgramLine.source c ∉ [ProgramLine.decode] ∧ ProgramLine.source c ∉ [ProgramLine.sinkOk]) ∧
      ProgramLine.loopback ∉ [ProgramLine.decode] ∧ ProgramLine.loopback ∉ [ProgramLine.sinkOk]) ∧
    (let p := [ProgramLine.sinkFailAt 2, .decode]
     let s : State := { encTurn 1 0 [] with inputs := programEvents p, sched := [.host] }
     nextAgent s = .host ∧ s.inputs = environmentEvents p ++ commandEvents .nothing p ∧ s.enc.st = .run) ∧
    (let p := [ProgramLine.decode, .sinkFailAt 2, .loopback]
     let s : State := { State.reset with inputs := programEvents p, sched := [.host, .host, .host, .dec] }
     s.inputs = environmentEvents p ++ commandEvents .nothing p ∧ s.offers = [] ∧ s.enc.st = .idle ∧
       s.dec.st = .idle ∧ s.sched = List.replicate (environmentEvents p).length .host ++ [.dec]) :=
  ⟨by simp, by simp, by decide, by decide⟩

end Sys2Proof.Tests
end

/-! PROOFS. The scope of CORE: the two reinterpretations, the valid domain, and the host's turn (00_scope). -/

/-! ### The values of the two reinterpretations (R6) -/

namespace Sys2Proof

theorem u64_toNat_of_nonneg {v : Int} (hv : inValueRange v = true) (h : 0 ≤ v) : ((u64 v).toNat : Int) = v := by
  rw [inValueRange_iff] at hv
  rw [u64_toNat]
  exact Int.emod_eq_of_lt h (by omega)

theorem u64_toNat_of_neg {v : Int} (hv : inValueRange v = true) (h : v < 0) :
    ((u64 v).toNat : Int) = v + 2 ^ 64 := by
  rw [inValueRange_iff] at hv
  rw [u64_toNat, ← Int.add_emod_right]
  exact Int.emod_eq_of_lt (by omega) (by omega)

theorem s64_of_le {u : Pattern} (h : 2 ^ 63 ≤ u.toNat) : s64 u = (u.toNat : Int) - 2 ^ 64 := by
  rw [s64, BitVec.toInt_eq_toNat_cond, if_neg (by omega)]
  rfl

end Sys2Proof

/-! ### The host's turn (R9, R98) -/

namespace Sys2Proof.Machine

/-- The host's turn with an event at which it waits: the turn is used up and nothing else changes. -/
theorem step_of_hostWaits {s : State} {e : HostEvent} {es : List HostEvent} (ha : nextAgent s = .host)
    (hi : s.inputs = e :: es) (hw : hostWaits s e = true) : step s = .next (advance s) := by
  simp [step, ha, agentStep, hostStep, hi, hostWaits_advance, hw]

/-- The host's turn with an event at which it does not wait: the event, on the state whose list it has left. -/
theorem step_of_hostActs {s : State} {e : HostEvent} {es : List HostEvent} (ha : nextAgent s = .host)
    (hi : s.inputs = e :: es) (hw : hostWaits s e = false) :
    step s = hostEvent { advance s with inputs := es } e := by
  simp [step, ha, agentStep, hostStep, hi, hostWaits_advance, hw, State.setInputs]

theorem hostWaits_awaitEnc_iff (s : State) :
    hostWaits s .awaitEnc = true ↔ (∃ w ∈ s.offers, w.toNat < 2 ^ 64) ∨ s.enc.st = .run := by
  simp only [hostWaits, State.encOutstanding_iff, opBit_eq_false_iff]

theorem hostWaits_awaitDec_iff (s : State) :
    hostWaits s .awaitDec = true ↔ (∃ w ∈ s.offers, 2 ^ 64 ≤ w.toNat) ∨ s.dec.st = .run := by
  simp only [hostWaits, State.decOutstanding_iff, opBit_iff]

/-- The wait for the ENCODE commands ends once only DECODE words are offered and ENC is idle. -/
theorem hostWaits_awaitEnc_eq_false {s : State} (ho : ∀ w ∈ s.offers, 2 ^ 64 ≤ w.toNat) (hr : s.enc.st = .idle) :
    hostWaits s .awaitEnc = false := by
  rw [← Bool.not_eq_true, hostWaits_awaitEnc_iff]
  rintro (⟨w, hw, hlt⟩ | hrun)
  · exact absurd (ho w hw) (Nat.not_le.2 hlt)
  · rw [hr] at hrun
    cases hrun

/-- The wait for the DECODE commands ends once only ENCODE words are offered and DEC is idle. -/
theorem hostWaits_awaitDec_eq_false {s : State} (ho : ∀ w ∈ s.offers, w.toNat < 2 ^ 64) (hr : s.dec.st = .idle) :
    hostWaits s .awaitDec = false := by
  rw [← Bool.not_eq_true, hostWaits_awaitDec_iff]
  rintro (⟨w, hw, hle⟩ | hrun)
  · exact absurd (ho w hw) (Nat.not_lt.2 hle)
  · rw [hr] at hrun
    cases hrun

/-- ENC's oldest response is taken, and the later ones stay in their order (R120). -/
theorem step_takeEnc {s : State} {es : List HostEvent} {r : EncResult} {rs : List EncResult}
    (ha : nextAgent s = .host) (hi : s.inputs = .takeEnc :: es) (hr : s.encRsps = r :: rs) :
    step s = .next { advance s with inputs := es, encRsps := rs } := by
  rw [step_of_hostActs ha hi (by simp [hostWaits, hr])]
  simp [hostEvent, State.setEncRsps, hr]

/-- DEC's oldest response is taken, and the later ones stay in their order (R120). -/
theorem step_takeDec {s : State} {es : List HostEvent} {r : DecResult} {rs : List DecResult}
    (ha : nextAgent s = .host) (hi : s.inputs = .takeDec :: es) (hr : s.decRsps = r :: rs) :
    step s = .next { advance s with inputs := es, decRsps := rs } := by
  rw [step_of_hostActs ha hi (by simp [hostWaits, hr])]
  simp [hostEvent, State.setDecRsps, hr]

end Sys2Proof.Machine

/-! ### The statements -/

namespace Sys2Proof.Proofs

open Sys2Proof.Machine

/-- Settles O6: the values are those of the residue and of two's complement, and the two are inverse to each other. -/
theorem reinterpretationsAreInverseBijections : Obligations.ReinterpretationsAreInverseBijections := by
  unfold Obligations.ReinterpretationsAreInverseBijections
  refine ⟨u64_toNat, fun v hv => ?_, fun u => ?_, inValueRange_s64, fun v => s64_u64, u64_s64⟩
  · split
    next h => exact u64_toNat_of_nonneg hv h
    next h => exact u64_toNat_of_neg hv (Int.not_le.1 h)
  · split
    next h => exact s64_of_lt h
    next h => exact s64_of_le (Nat.not_lt.1 h)

/-- Settles O7: a value from 0 on is its own pattern, and a negative value has its pattern at `2^63` or above. -/
theorem validIsPatternBelow35Bits : Obligations.ValidIsPatternBelow35Bits := by
  unfold Obligations.ValidIsPatternBelow35Bits
  intro v hv
  have hrange := (inValueRange_iff v).1 hv
  rcases Int.lt_or_le v 0 with hneg | hnonneg
  · have hpattern := u64_toNat_of_neg hv hneg
    omega
  · have hpattern := u64_toNat_of_nonneg hv hnonneg
    omega

/-- Settles O58, event by event: at each the host waits, or its turn is the event's own effect. -/
theorem hostIssuesAndTakesInOrder : Obligations.HostIssuesAndTakesInOrder := by
  unfold Obligations.HostIssuesAndTakesInOrder
  refine ⟨?issue, ?takeEnc, ?takeDec, ?await, ?awaitEnc, ?awaitDec⟩
  case issue =>
    intro s w es ha hi
    exact step_of_hostActs ha hi rfl
  case takeEnc =>
    intro s es ha hi
    exact ⟨fun r rs hr => step_takeEnc ha hi hr, fun hr => step_of_hostWaits ha hi (by simp [hostWaits, hr])⟩
  case takeDec =>
    intro s es ha hi
    exact ⟨fun r rs hr => step_takeDec ha hi hr, fun hr => step_of_hostWaits ha hi (by simp [hostWaits, hr])⟩
  case await =>
    intro s es ha hi
    exact ⟨fun ho he hd => step_of_hostActs ha hi (s.outstanding_eq_false_iff.2 ⟨ho, he, hd⟩),
      fun h => step_of_hostWaits ha hi (s.outstanding_iff.2 h)⟩
  case awaitEnc =>
    intro s es ha hi
    exact ⟨fun ho hr => step_of_hostActs ha hi (hostWaits_awaitEnc_eq_false ho hr),
      fun h => step_of_hostWaits ha hi ((hostWaits_awaitEnc_iff s).2 h)⟩
  case awaitDec =>
    intro s es ha hi
    exact ⟨fun ho hr => step_of_hostActs ha hi (hostWaits_awaitDec_eq_false ho hr),
      fun h => step_of_hostWaits ha hi ((hostWaits_awaitDec_iff s).2 h)⟩

end Sys2Proof.Proofs

/-! PROOFS. The state of CORE: its invariant, its values at reset, and MAX_SIZE (10_state). -/

/-! ### The arithmetic of one chunk, in either unit -/

namespace Sys2Proof.Machine

theorem restOf_toNat (rem : Pattern) : (restOf rem).toNat = rem.toNat / 2 ^ 7 := by
  simp [restOf, Config.dataBits, Nat.shiftRight_eq_div_pow]

/-- A position from 0 to 4 that is not the last one moves on without wrapping, and stays within 0 to 4 (R23, R24). -/
theorem pos_succ_toNat {p : Pos} (h : p.toNat ≤ 4) (hp : p ≠ 4#3) :
    (p + 1).toNat = p.toNat + 1 ∧ p.toNat + 1 ≤ 4 := by
  revert p
  decide

/-- A data field takes the 7 bits above those that the positions before it have filled: what it adds is
`d * 2^(7 * pos)`, and at positions 0 to 4 nothing is shifted out of the pattern (R166). -/
theorem shiftedData_toNat (d : Data) {pos : Pos} (hp : pos.toNat ≤ 4) :
    (d.setWidth 64 <<< (Config.dataBits * pos.toNat)).toNat = 2 ^ (7 * pos.toNat) * d.toNat := by
  have hle : 2 ^ (7 * pos.toNat) ≤ 2 ^ 28 := Nat.pow_le_pow_right (by decide) (by omega)
  have hlt : 2 ^ (7 * pos.toNat) * d.toNat < 2 ^ 64 :=
    calc 2 ^ (7 * pos.toNat) * d.toNat
      _ ≤ 2 ^ 28 * 2 ^ 7 := Nat.mul_le_mul hle d.isLt.le
      _ < 2 ^ 64 := by decide
  have hd : (d.setWidth 64).toNat = d.toNat := BitVec.toNat_setWidth_of_le (by decide)
  rw [BitVec.toNat_shiftLeft, hd, Nat.shiftLeft_eq, Nat.mul_comm]
  exact Nat.mod_eq_of_lt hlt

/-- Where no accumulator bit stands at or above the position, the OR of the fold is an addition (R166). -/
theorem fold_toNat {acc : Pattern} {pos : Pos} (d : Data) (hp : pos.toNat ≤ 4)
    (ha : acc.toNat < 2 ^ (7 * pos.toNat)) :
    (fold acc pos d).toNat = acc.toNat + d.toNat * 2 ^ (7 * pos.toNat) := by
  rw [fold, BitVec.toNat_or, shiftedData_toNat d hp, Nat.or_comm, ← Nat.two_pow_add_eq_or_of_lt ha,
    Nat.add_comm, Nat.mul_comm]

/-- After the fold no accumulator bit stands at or above the next position (R168). -/
theorem fold_toNat_lt {acc : Pattern} {pos : Pos} (d : Data) (hp : pos.toNat ≤ 4)
    (ha : acc.toNat < 2 ^ (7 * pos.toNat)) : (fold acc pos d).toNat < 2 ^ (7 * (pos.toNat + 1)) := by
  rw [fold_toNat d hp ha]
  calc acc.toNat + d.toNat * 2 ^ (7 * pos.toNat)
    _ < (d.toNat + 1) * 2 ^ (7 * pos.toNat) := by linarith
    _ ≤ 2 ^ 7 * 2 ^ (7 * pos.toNat) := Nat.mul_le_mul_right _ d.isLt
    _ = 2 ^ (7 * (pos.toNat + 1)) := by rw [← Nat.pow_add, Nat.mul_succ, Nat.add_comm]

/-- What DEC converts lies in `VALID`: five groups of 7 bits leave the sign bit clear (R168, R173). -/
theorem valid_s64_fold {acc : Pattern} {pos : Pos} (d : Data) (hp : pos.toNat ≤ 4)
    (ha : acc.toNat < 2 ^ (7 * pos.toNat)) : valid (s64 (fold acc pos d)) := by
  have hlt : (fold acc pos d).toNat < 2 ^ 35 :=
    (fold_toNat_lt d hp ha).trans_le (Nat.pow_le_pow_right (by decide) (by omega))
  rw [s64_of_lt (by omega)]
  omega

/-- Every state presents the same MAX_SIZE (R28). -/
@[simp] theorem State.maxSize_eq (s : State) : s.maxSize = 5#3 := rfl

end Sys2Proof.Machine

/-! ### The invariant, unit by unit -/

namespace Sys2Proof.Safety

open Sys2Proof.Machine

theorem encOk_cleared : EncOk Enc.cleared := ⟨rfl, rfl⟩

theorem decOk_cleared : DecOk Dec.cleared := ⟨rfl, rfl⟩

theorem encOk_run_iff (rem : Pattern) (cnt : Pos) :
    EncOk { rem := rem, cnt := cnt, st := .run } ↔
      cnt.toNat ≤ 4 ∧ rem.toNat < 2 ^ (64 - 7 * cnt.toNat) ∧ (cnt ≠ 0 → rem ≠ 0) := Iff.rfl

theorem decOk_run_iff (acc : Pattern) (pos : Pos) :
    DecOk { acc := acc, pos := pos, st := .run } ↔ pos.toNat ≤ 4 ∧ acc.toNat < 2 ^ (7 * pos.toNat) := Iff.rfl

/-- The encoder as an accepted ENCODE leaves it, whatever the value (R131). -/
theorem encOk_accepted (u : Pattern) : EncOk { rem := u, cnt := 0, st := .run } :=
  (encOk_run_iff u 0).2 ⟨by decide, u.isLt, fun h => absurd rfl h⟩

/-- The decoder as an accepted DECODE leaves it (R161). -/
theorem decOk_accepted : DecOk { acc := 0, pos := 0, st := .run } := (decOk_run_iff 0 0).2 (by decide)

/-- A written chunk takes its 7 bits off the value: the bound on what is left moves with the position (R136). -/
theorem EncOk.next {e : Enc} (h : EncOk e) (hr : e.st = .run) (hrest : restOf e.rem ≠ 0) (hcnt : e.cnt ≠ 4#3) :
    EncOk { rem := restOf e.rem, cnt := e.cnt + 1, st := .run } := by
  obtain ⟨rem, cnt, st⟩ := e
  subst hr
  obtain ⟨hle, hlt, -⟩ := (encOk_run_iff rem cnt).1 h
  obtain ⟨hsucc, hle'⟩ := pos_succ_toNat hle hcnt
  rw [encOk_run_iff, hsucc, restOf_toNat]
  refine ⟨hle', Nat.div_lt_of_lt_mul ?_, fun _ => hrest⟩
  rw [← Nat.pow_add]
  convert hlt using 2
  omega

/-- A folded chunk fills the 7 bits of its position: the bound on the accumulator moves with the position (R166). -/
theorem DecOk.next {e : Dec} (h : DecOk e) (hr : e.st = .run) (d : Data) (hpos : e.pos ≠ 4#3) :
    DecOk { acc := fold e.acc e.pos d, pos := e.pos + 1, st := .run } := by
  obtain ⟨acc, pos, st⟩ := e
  subst hr
  obtain ⟨hle, hlt⟩ := (decOk_run_iff acc pos).1 h
  obtain ⟨hsucc, hle'⟩ := pos_succ_toNat hle hpos
  rw [decOk_run_iff, hsucc]
  exact ⟨hle', fold_toNat_lt d hle hlt⟩

/-- A running decoder that meets the invariant can only respond with a value of `VALID` (R173). -/
theorem DecOk.decRspOk_ok {e : Dec} (h : DecOk e) (hr : e.st = .run) (d : Data) :
    DecRspOk (.ok (s64 (fold e.acc e.pos d))) := by
  obtain ⟨acc, pos, st⟩ := e
  subst hr
  obtain ⟨hle, hlt⟩ := (decOk_run_iff acc pos).1 h
  exact valid_s64_fold d hle hlt

/-! ### The invariant under the operations of the machine -/

section Operations

variable {s t : State} (h : CoreInv s)

include h

theorem CoreInv.encOk : EncOk s.enc := h.1

theorem CoreInv.decOk : DecOk s.dec := h.2.1

/-- The invariant reads the two units and their responses alone, and of the responses any part may be taken. -/
theorem CoreInv.of_frame (he : t.enc = s.enc) (hd : t.dec = s.dec) (hre : t.encRsps ⊆ s.encRsps)
    (hrd : t.decRsps ⊆ s.decRsps) : CoreInv t := by
  obtain ⟨henc, hdec, hencRsps, hdecRsps⟩ := h
  exact ⟨he ▸ henc, hd ▸ hdec, fun r hr => hencRsps r (hre hr), fun r hr => hdecRsps r (hrd hr)⟩

theorem CoreInv.advance : CoreInv (advance s) := h

theorem CoreInv.setInputs (l : List HostEvent) : CoreInv (s.setInputs l) := h

theorem CoreInv.setOffers (l : List CmdWord) : CoreInv (s.setOffers l) := h

theorem CoreInv.sinkWrite (b : Byte) (a : SinkAnswer) : CoreInv (s.sinkWrite b a) := h

theorem CoreInv.sourceRead (a : SourceAnswer) : CoreInv (s.sourceRead a) := h

theorem CoreInv.setEnc {e : Enc} (he : EncOk e) : CoreInv (s.setEnc e) := by
  obtain ⟨-, hrest⟩ := h
  exact ⟨he, hrest⟩

theorem CoreInv.setDec {d : Dec} (hd : DecOk d) : CoreInv (s.setDec d) := by
  obtain ⟨henc, -, hrsps⟩ := h
  exact ⟨henc, hd, hrsps⟩

theorem CoreInv.resetCore : CoreInv s.resetCore := (h.setEnc encOk_cleared).setDec decOk_cleared

/-- An ENCODE ends with the registers cleared and one more response (R35, R117). -/
theorem CoreInv.endEnc {r : EncResult} (hr : EncRspOk r) : CoreInv (s.endEnc r) := by
  obtain ⟨-, hdec, hencRsps, hdecRsps⟩ := h
  exact ⟨encOk_cleared, hdec, List.forall_mem_append.2 ⟨hencRsps, List.forall_mem_singleton.2 hr⟩, hdecRsps⟩

/-- A DECODE ends with the registers cleared and one more response (R35, R117). -/
theorem CoreInv.endDec {r : DecResult} (hr : DecRspOk r) : CoreInv (s.endDec r) := by
  obtain ⟨henc, -, hencRsps, hdecRsps⟩ := h
  exact ⟨henc, decOk_cleared, hencRsps, List.forall_mem_append.2 ⟨hdecRsps, List.forall_mem_singleton.2 hr⟩⟩

/-- A chunk step of ENC ends the operation with `Ok` or `SinkWriteError`, or goes on to the next chunk (R132). -/
theorem CoreInv.encChunk (hr : s.enc.st = .run) : CoreInv (encChunk s) := by
  rw [encChunk_eq]
  cases s.sinkAnswer with
  | ok =>
    have hw := h.sinkWrite (chunkOf s.enc.rem) .ok
    by_cases hend : restOf s.enc.rem = 0 ∨ s.enc.cnt = 4#3
    · simp only [if_pos hend]
      exact hw.endEnc (.inl rfl)
    · simp only [if_neg hend]
      obtain ⟨hrest, hcnt⟩ := not_or.1 hend
      exact hw.setEnc (h.encOk.next hr hrest hcnt)
  | fail left => exact (h.sinkWrite _ _).endEnc (.inr rfl)

/-- No act of the host reaches into a unit but RESET, which clears both (R241). -/
theorem CoreInv.hostEvent {e : HostEvent} (ht : hostEvent s e = .next t) : CoreInv t := by
  by_cases he : e = .reset
  · subst he
    cases ht
    exact h.resetCore
  · obtain ⟨henc, hdec, -, ⟨le, hle⟩, ⟨ld, hld⟩, -⟩ := hostEvent_frame he ht
    exact h.of_frame henc hdec (hle ▸ List.subset_append_right le _) (hld ▸ List.subset_append_right ld _)

end Operations

/-- Each way in which a step answers a next state keeps the invariant. -/
theorem CoreInv.stepTo {s t : State} (h : CoreInv s) (hst : StepTo s t) : CoreInv t := by
  cases hst with
  | encChunk ha hr => exact h.advance.encChunk hr
  | encAccept w ws ha hr ho => exact (h.advance.setOffers ws).setEnc (encOk_accepted (valueField w))
  | encRests ha hr ho => exact h.advance
  | decFail m ha hr hs => exact (h.advance.sourceRead _).endDec (.inl rfl)
  | decMalformed b ha hr hs hc hp => exact (h.advance.sourceRead _).endDec (.inr rfl)
  | decCont b ha hr hs hc hp => exact (h.advance.sourceRead _).setDec (h.decOk.next hr (dataField b) hp)
  | decLast b ha hr hs hc => exact (h.advance.sourceRead _).endDec (h.decOk.decRspOk_ok hr (dataField b))
  | decAccept w ws ha hr ho => exact (h.advance.setOffers ws).setDec decOk_accepted
  | decRests ha hr ho => exact h.advance
  | hostRests ha hi => exact h.advance
  | hostWaits e es ha hi hw => exact h.advance
  | hostActs t e es ha hi hw ht => exact (h.advance.setInputs es).hostEvent ht

theorem coreInv_reset : CoreInv State.reset :=
  ⟨encOk_cleared, decOk_cleared, List.forall_mem_nil _, List.forall_mem_nil _⟩

end Sys2Proof.Safety

/-! ### The statements -/

namespace Sys2Proof.Proofs

open Sys2Proof.Machine Sys2Proof.Safety

/-- Settles O44, by the cases of the inversion of `step`. -/
theorem invariantKeptByEveryStep : Obligations.InvariantKeptByEveryStep := by
  unfold Obligations.InvariantKeptByEveryStep
  intro s t h hstep
  exact h.stepTo (step_next hstep)

/-- Settles O45: both units are cleared, and no response stands. -/
theorem invariantHoldsAtReset : Obligations.InvariantHoldsAtReset := coreInv_reset

/-- Settles O46: both units are cleared, and MAX_SIZE is hard-wired. -/
theorem coreAfterReset : Obligations.CoreAfterReset := ⟨rfl, rfl, State.reset.maxSize_eq⟩

/-- Settles O48: MAX_SIZE does not depend on the state. -/
theorem maxSizeIsHardwired : Obligations.MaxSizeIsHardwired := by
  unfold Obligations.MaxSizeIsHardwired
  intro s
  exact ⟨s.maxSize_eq, fun t _ => t.maxSize_eq.trans s.maxSize_eq.symm⟩

end Sys2Proof.Proofs

/-! PROOFS. The streams and the independence of the two units (20_memory). -/

/-! ### The bits of an encoding (R61, R87) -/

namespace Sys2Proof

/-- Bit `i` of the `data` field stands at bit `i` of the chunk (R81). -/
theorem chunkByte_getLsbD {i : Nat} (hi : i < 7) (c : Bool) (d : Data) :
    (chunkByte c d).getLsbD i = d.getLsbD i := by
  unfold chunkByte
  exact BitVec.getLsbD_append.trans (if_pos hi)

end Sys2Proof

namespace Sys2Proof.Machine

open Sys2Proof.Safety

/-- The 7 bits under the mask of R134 are the data field of R132. -/
theorem and_mask_setWidth (u : Pattern) : (u &&& 0x7F).setWidth 8 = (lowData u).setWidth 8 := by
  apply BitVec.eq_of_toNat_eq
  have hmask : u.toNat &&& 127 = u.toNat % 128 := Nat.and_two_pow_sub_one_eq_mod u.toNat 7
  rw [BitVec.toNat_setWidth, BitVec.toNat_and, show (0x7F : Pattern).toNat = 127 from rfl, hmask]
  simp [lowData]

/-- A zero-extended data field with bit 7 set or left clear is the chunk of that flag. -/
theorem setWidth_or_flag (c : Bool) (d : Data) : d.setWidth 8 ||| (if c then 0x80 else 0x00) = chunkByte c d := by
  cases c <;> revert d <;> decide

/-- What is left of a pattern after `p` chunks, and one chunk more (R136). -/
theorem shiftRight_eq_restOf (u : Pattern) (p : Nat) : u >>> (7 * (p + 1)) = restOf (u >>> (7 * p)) :=
  BitVec.shiftRight_add u (7 * p) 7

/-- The closed form of a byte is the chunk that ENC writes with that much of the value left (R132, R134). -/
theorem encByte_eq_chunkOf (u : Pattern) (p : Nat) : encByte u p = chunkOf (u >>> (7 * p)) := by
  rw [chunkOf, ← setWidth_or_flag, encByte, and_mask_setWidth, shiftRight_eq_restOf]
  by_cases h : restOf (u >>> (7 * p)) = 0 <;> simp [moreFlag, h]

theorem lowData_getLsbD {i : Nat} (hi : i < 7) (u : Pattern) : (lowData u).getLsbD i = u.getLsbD i := by
  simp [lowData, hi]

/-- Whether a pattern shifted right is nonzero is whether a bit from there on is set. -/
theorem shiftRight_ne_zero_iff (u : Pattern) (n : Nat) : u >>> n ≠ 0 ↔ ∃ j, n ≤ j ∧ u.getLsbD j = true := by
  constructor
  · contrapose!
    intro hclear
    apply BitVec.eq_of_getLsbD_eq
    intro i _
    rw [BitVec.getLsbD_ushiftRight]
    simpa using hclear (n + i) (Nat.le_add_right n i)
  · rintro ⟨j, hj, hbit⟩ h
    have hclear : (u >>> n).getLsbD (j - n) = false := by simp [h]
    rw [BitVec.getLsbD_ushiftRight, Nat.add_sub_cancel' hj, hbit] at hclear
    cases hclear

theorem contBit_encByte (u : Pattern) (p : Nat) : contBit (encByte u p) = true ↔ u >>> (7 * (p + 1)) ≠ 0 := by
  rw [encByte_eq_chunkOf, chunkOf, contBit_chunkByte, moreFlag_iff, shiftRight_eq_restOf]

/-! ### What ends a DECODE (R59, R171) -/

theorem stopsAt_eq_false_iff (x : SourceAnswer) :
    stopsAt x = false ↔ ∃ b : Byte, x = .byte b ∧ 128 ≤ b.toNat := by
  cases x with
  | byte b => simp [stopsAt, contBit_iff]
  | fail m => simp [stopsAt]

theorem stopIndex_eq_none_iff (a : Nat → SourceAnswer) :
    stopIndex a = none ↔ ∀ k, k < 5 → stopsAt (a k) = false := by
  simp [stopIndex]

theorem stopIndex_eq_some_iff (a : Nat → SourceAnswer) (k : Nat) :
    stopIndex a = some k ↔ stopsAt (a k) = true ∧ k < 5 ∧ ∀ j, j < k → stopsAt (a j) = false := by
  simp [stopIndex, List.find?_range_eq_some]

theorem decOutcome_of_none {a : Nat → SourceAnswer} (h : stopIndex a = none) :
    decOutcome a = (.err .malformedEncoding, 5) := by
  simp [decOutcome, h]

theorem decOutcome_of_fail {a : Nat → SourceAnswer} {k m : Nat} (h : stopIndex a = some k) (ha : a k = .fail m) :
    decOutcome a = (.err .sourceReadError, k) := by
  simp [decOutcome, h, ha]

theorem decOutcome_of_byte {a : Nat → SourceAnswer} {k : Nat} {b : Byte} (h : stopIndex a = some k)
    (ha : a k = .byte b) :
    decOutcome a = (.ok (s64 (BitVec.ofNat 64 (denoted (firstBytes a (k + 1))))), k + 1) := by
  simp [decOutcome, h, ha]

/-- The three outcomes of a DECODE, each with the answers it comes from: five bytes that continue, a failed read, or a
byte that ends the encoding, after bytes that continue. -/
theorem decOutcome_cases (a : Nat → SourceAnswer) :
    (decOutcome a = (.err .malformedEncoding, 5) ∧ ∀ k, k < 5 → stopsAt (a k) = false) ∨
    (∃ k m, decOutcome a = (.err .sourceReadError, k) ∧ k < 5 ∧ a k = .fail m ∧
      ∀ j, j < k → stopsAt (a j) = false) ∨
    (∃ k b v, decOutcome a = (.ok v, k + 1) ∧ k < 5 ∧ a k = .byte b ∧ b.toNat < 128 ∧
      ∀ j, j < k → stopsAt (a j) = false) := by
  cases h : stopIndex a with
  | none => exact .inl ⟨decOutcome_of_none h, (stopIndex_eq_none_iff a).1 h⟩
  | some k =>
    obtain ⟨hstop, hk, hbefore⟩ := (stopIndex_eq_some_iff a k).1 h
    cases ha : a k with
    | fail m => exact .inr (.inl ⟨k, m, decOutcome_of_fail h ha, hk, ha, hbefore⟩)
    | byte b =>
      have hb : b.toNat < 128 := by
        rw [ha] at hstop
        simpa [stopsAt, contBit_eq_false_iff] using hstop
      exact .inr (.inr ⟨k, b, _, decOutcome_of_byte h ha, hk, ha, hb, hbefore⟩)

/-! ### The offers left by a unit's turn (R116) -/

/-- The offers that a turn of a unit leaves: an idle unit takes the first command of its own, a running one none. -/
def offersLeft (st : RunState) (own : CmdWord → Bool) (l : List CmdWord) : List CmdWord :=
  match st with
  | .idle => l.eraseP own
  | .run => l

theorem takeOffer_eq (own : CmdWord → Bool) (l : List CmdWord) :
    takeOffer own l = (l.find? own).map fun w => (w, l.eraseP own) := by
  induction l with
  | nil => rfl
  | cons x xs ih =>
    cases hx : own x with
    | true => simp [takeOffer, hx]
    | false =>
      simp only [takeOffer, hx, ih]
      cases hxs : xs.find? own <;> simp [hx, hxs]

theorem eraseP_of_find?_eq_none {own : CmdWord → Bool} {l : List CmdWord} (h : l.find? own = none) :
    l.eraseP own = l :=
  List.eraseP_of_forall_not (List.find?_eq_none.1 h)

/-- The command that one unit would take is the same after the other unit has taken its own. -/
theorem find?_eraseP_of_disjoint {own other : CmdWord → Bool} (hne : ∀ w, other w = true → own w = false)
    (l : List CmdWord) : (l.eraseP other).find? own = l.find? own := by
  induction l with
  | nil => rfl
  | cons x xs ih =>
    cases hx : other x with
    | true => simp [hx, hne x hx]
    | false => simp [hx, List.find?_cons, ih]

theorem find?_offersLeft {own other : CmdWord → Bool} (hne : ∀ w, other w = true → own w = false) (st : RunState)
    (l : List CmdWord) : (offersLeft st other l).find? own = l.find? own := by
  cases st with
  | idle => exact find?_eraseP_of_disjoint hne l
  | run => rfl

/-- The two units take their commands out of the host's hand in either order. -/
theorem offersLeft_comm {own other : CmdWord → Bool} (hne : ∀ w, other w = true → own w = false)
    (st st' : RunState) (l : List CmdWord) :
    offersLeft st' other (offersLeft st own l) = offersLeft st own (offersLeft st' other l) := by
  cases st with
  | run => rfl
  | idle =>
    cases st' with
    | run => rfl
    | idle =>
      refine List.eraseP_comm fun w _ => ?_
      cases hw : other w with
      | true => exact .inl (by simp [hne w hw])
      | false => exact .inr Bool.false_ne_true

/-! ### What a unit's turn does, as a function of the state -/

/-- The state after ENC's turn: a chunk step in RUN, else the acceptance of the first ENCODE offered (R131, R132). -/
def encNext (s : State) : State :=
  match s.enc.st with
  | .run => encChunk s
  | .idle =>
    match s.offers.find? fun w => !opBit w with
    | none => s
    | some w =>
      { s with offers := s.offers.eraseP fun w => !opBit w, enc := { rem := valueField w, cnt := 0, st := .run } }

/-- What DEC does with the byte it has read (R163, R181, R182). -/
def decByte (b : Byte) (s : State) : State :=
  if contBit b then
    if s.dec.pos = 4#3 then s.raiseDec .malformedEncoding
    else s.setDec { acc := fold s.dec.acc s.dec.pos (dataField b), pos := s.dec.pos + 1, st := .run }
  else s.respondDec (s64 (fold s.dec.acc s.dec.pos (dataField b)))

/-- The state after DEC's turn: one read in RUN, else the acceptance of the first DECODE offered (R161, R162, R164). -/
def decNext (s : State) : State :=
  match s.dec.st with
  | .run =>
    match s.sourceAnswer with
    | .fail m => (s.sourceRead (.fail m)).raiseDec .sourceReadError
    | .byte b => decByte b (s.sourceRead (.byte b))
  | .idle =>
    match s.offers.find? opBit with
    | none => s
    | some _ => (s.setOffers (s.offers.eraseP opBit)).acceptDec

theorem encStep_eq (s : State) : encStep s = .next (encNext s) := by
  unfold encNext
  cases hr : s.enc.st with
  | run => exact encStep_of_run hr
  | idle =>
    cases hf : s.offers.find? fun w => !opBit w with
    | none => exact encStep_of_idle_none hr (by rw [takeOffer_eq, hf]; rfl)
    | some w => exact encStep_accepts hr (by rw [takeOffer_eq, hf]; rfl)

/-- A byte interpreted by a running DEC, whichever of the two chunk forms it is. -/
theorem exec_decodeChunk {s : State} (hr : s.dec.st = .run) (b : Byte) :
    exec (decodeChunk b) s = .next (decByte b s) := by
  cases hc : contBit b with
  | true =>
    rw [decodeChunk_of_cont hc, exec, execChunkCont_eq, hr]
    simp only [decByte, hc, if_true]
    rfl
  | false =>
    rw [decodeChunk_of_last hc, exec, execChunkLast_eq, hr]
    simp only [decByte, hc]
    rfl

theorem decStep_eq (s : State) : decStep s = .next (decNext s) := by
  unfold decNext
  cases hr : s.dec.st with
  | run =>
    cases ha : s.sourceAnswer with
    | fail m => exact decStep_of_run_fail hr ha
    | byte b => exact (decStep_of_run_byte hr ha).trans (exec_decodeChunk (s := s.sourceRead (.byte b)) hr b)
  | idle =>
    cases hf : s.offers.find? opBit with
    | none => exact decStep_of_idle_none hr (by rw [takeOffer_eq, hf]; rfl)
    | some w => exact decStep_accepts hr (by rw [takeOffer_eq, hf]; rfl)

theorem step_enc {s : State} (ha : nextAgent s = .enc) : step s = .next (encNext (advance s)) := by
  rw [step, ha]
  exact encStep_eq (advance s)

theorem step_dec {s : State} (ha : nextAgent s = .dec) : step s = .next (decNext (advance s)) := by
  rw [step, ha]
  exact decStep_eq (advance s)

/-! ### What a unit's turn reads and writes (R68, R209) -/

/-- `u` with ENC's side as ENC's turn in `s` leaves it: ENC, the sink, its responses, and the offers less its own. -/
def State.afterEnc (u s : State) : State :=
  { u with
    enc := (encNext s).enc
    sink := (encNext s).sink
    encRsps := (encNext s).encRsps
    offers := offersLeft s.enc.st (fun w => !opBit w) u.offers }

/-- `u` with DEC's side as DEC's turn in `s` leaves it: DEC, the source, its responses, and the offers less its own. -/
def State.afterDec (u s : State) : State :=
  { u with
    dec := (decNext s).dec
    source := (decNext s).source
    decRsps := (decNext s).decRsps
    offers := offersLeft s.dec.st opBit u.offers }

/-- ENC finds in `u` what it finds in `s`. -/
structure SameForEnc (s u : State) : Prop where
  enc : u.enc = s.enc
  sink : u.sink = s.sink
  rsps : u.encRsps = s.encRsps
  offer : (u.offers.find? fun w => !opBit w) = s.offers.find? fun w => !opBit w
  answer : s.enc.st = .run → u.sinkAnswer = s.sinkAnswer

/-- DEC finds in `u` what it finds in `s`. -/
structure SameForDec (s u : State) : Prop where
  dec : u.dec = s.dec
  source : u.source = s.source
  rsps : u.decRsps = s.decRsps
  offer : u.offers.find? opBit = s.offers.find? opBit
  answer : s.dec.st = .run → u.sourceAnswer = s.sourceAnswer

theorem SameForEnc.refl (s : State) : SameForEnc s s := ⟨rfl, rfl, rfl, rfl, fun _ => rfl⟩

theorem SameForDec.refl (s : State) : SameForDec s s := ⟨rfl, rfl, rfl, rfl, fun _ => rfl⟩

/-- ENC's turn reads nothing but what `SameForEnc` names, and writes nothing but what `afterEnc` names. -/
theorem SameForEnc.encNext_eq {s u : State} (h : SameForEnc s u) : encNext u = u.afterEnc s := by
  obtain ⟨henc, hsink, hrsps, hoffer, hanswer⟩ := h
  cases hr : s.enc.st with
  | run =>
    simp only [encNext, State.afterEnc, offersLeft, henc, hr, encChunk_eq, hanswer hr, hsink, hrsps,
      State.sinkWrite_eq]
    cases s.sinkAnswer with
    | ok =>
      by_cases hend : restOf s.enc.rem = 0 ∨ s.enc.cnt = 4#3
      · simp only [if_pos hend]
      · simp only [if_neg hend]
    | fail left => rfl
  | idle =>
    simp only [encNext, State.afterEnc, offersLeft, henc, hr, hoffer]
    cases hf : s.offers.find? fun w => !opBit w with
    | none => simp only [← henc, ← hsink, ← hrsps, eraseP_of_find?_eq_none (hoffer.trans hf)]
    | some w => simp only [← hsink, ← hrsps]

/-- DEC's turn reads nothing but what `SameForDec` names, and writes nothing but what `afterDec` names. -/
theorem SameForDec.decNext_eq {s u : State} (h : SameForDec s u) : decNext u = u.afterDec s := by
  obtain ⟨hdec, hsource, hrsps, hoffer, hanswer⟩ := h
  cases hr : s.dec.st with
  | run =>
    simp only [decNext, State.afterDec, offersLeft, hdec, hr, hanswer hr]
    cases s.sourceAnswer with
    | fail m => simp [hsource, hrsps]
    | byte b =>
      cases hc : contBit b with
      | true =>
        by_cases hp : s.dec.pos = 4#3 <;> simp [decByte, hc, hp, hdec, hsource, hrsps, State.setDec]
      | false => simp [decByte, hc, hdec, hsource, hrsps]
  | idle =>
    simp only [decNext, State.afterDec, offersLeft, hdec, hr, hoffer]
    cases hf : s.offers.find? opBit with
    | none => simp only [← hdec, ← hsource, ← hrsps, eraseP_of_find?_eq_none (hoffer.trans hf)]
    | some w => simp [← hsource, ← hrsps, State.setOffers]

theorem encNext_eq (s : State) : encNext s = s.afterEnc s := (SameForEnc.refl s).encNext_eq

theorem decNext_eq (s : State) : decNext s = s.afterDec s := (SameForDec.refl s).decNext_eq

/-! ### The streams in a unit's turn (R53, R54, R56, R57) -/

theorem encNext_sink_of_idle {s : State} (hr : s.enc.st = .idle) : (encNext s).sink = s.sink := by
  simp only [encNext, hr]
  cases s.offers.find? fun w => !opBit w <;> rfl

/-- A turn of a running ENC leaves the sink as one write of its chunk does, whether the operation ends or goes on. -/
theorem encNext_sink_of_run {s : State} (hr : s.enc.st = .run) :
    (encNext s).sink = (s.sinkWrite (chunkOf s.enc.rem) s.sinkAnswer).sink := by
  simp only [encNext, hr, encChunk_eq]
  cases s.sinkAnswer with
  | ok =>
    by_cases hend : restOf s.enc.rem = 0 ∨ s.enc.cnt = 4#3
    · simp only [if_pos hend]
    · simp only [if_neg hend]
  | fail left => rfl

theorem decByte_source (b : Byte) (s : State) : (decByte b s).source = s.source := by
  unfold decByte
  split
  · split <;> rfl
  · rfl

theorem decNext_source_of_idle {s : State} (hr : s.dec.st = .idle) : (decNext s).source = s.source := by
  simp only [decNext, hr]
  cases s.offers.find? opBit <;> rfl

/-- A turn of a running DEC leaves the source as one read of it does, whatever the byte is taken for. -/
theorem decNext_source_of_run {s : State} (hr : s.dec.st = .run) :
    (decNext s).source = (s.sourceRead s.sourceAnswer).source := by
  simp only [decNext, hr]
  cases s.sourceAnswer with
  | fail m => rfl
  | byte b => exact decByte_source b (s.sourceRead (.byte b))

/-- Bytes already in the sink stay there through a turn of ENC (R53, R54). -/
theorem encNext_sink_grows (s : State) : ∃ l, (encNext s).sink.content = s.sink.content ++ l := by
  cases hr : s.enc.st with
  | run =>
    rw [encNext_sink_of_run hr]
    exact ⟨_, rfl⟩
  | idle => exact ⟨[], by rw [encNext_sink_of_idle hr, List.append_nil]⟩

/-- A turn of DEC does not move the source back (R59). -/
theorem position_le_decNext (s : State) : s.source.position ≤ (decNext s).source.position := by
  cases hr : s.dec.st with
  | run =>
    rw [decNext_source_of_run hr]
    exact Nat.le_add_right _ _
  | idle => rw [decNext_source_of_idle hr]

/-! ### The streams in the host's turn (R51, R73) -/

/-- The host's turn changes nothing but the turn's own place, or is its next event. -/
theorem hostStep_next {s t : State} (h : hostStep s = .next t) :
    t = s ∨ ∃ e es, s.inputs = e :: es ∧ hostEvent (s.setInputs es) e = .next t := by
  rw [hostStep] at h
  split at h
  next =>
    cases h
    exact .inl rfl
  next e es hi =>
    split at h
    · cases h
      exact .inl rfl
    · exact .inr ⟨e, es, hi, h⟩

theorem hostEvent_attachSink (s : State) (k : Sink) :
    hostEvent s (.attachSink k) = if s.enc.st = .run then .refused .attachmentChanged else .next (s.setSink k) := by
  simp only [hostEvent, State.encRuns_iff]

theorem hostEvent_attachSource (s : State) (c : Source) :
    hostEvent s (.attachSource c) =
      if s.dec.st = .run then .refused .attachmentChanged else .next (s.setSource c) := by
  simp only [hostEvent, State.decRuns_iff]

/-- Only the attachment of another sink takes bytes from it; another agent's write adds to it (R51, R73). -/
theorem hostEvent_sink_grows {s t : State} {e : HostEvent} (hne : ∀ k, e ≠ .attachSink k)
    (h : hostEvent s e = .next t) : ∃ l, t.sink.content = s.sink.content ++ l := by
  cases e with
  | attachSink k => exact absurd rfl (hne k)
  | foreignWrite b =>
    rw [hostEvent] at h
    split at h
    · cases h
    · cases h
      exact ⟨_, rfl⟩
  | attachSource | foreignRead =>
    rw [hostEvent] at h
    split at h
    · cases h
    · cases h
      exact ⟨[], (List.append_nil _).symm⟩
  | issue | takeEnc | takeDec | await | awaitEnc | awaitDec | reset =>
    cases h
    exact ⟨[], (List.append_nil _).symm⟩

/-- Only the attachment of another source moves it back; another agent's read moves it on (R51, R73). -/
theorem position_le_hostEvent {s t : State} {e : HostEvent} (hne : ∀ c, e ≠ .attachSource c)
    (h : hostEvent s e = .next t) : s.source.position ≤ t.source.position := by
  cases e with
  | attachSource c => exact absurd rfl (hne c)
  | foreignRead =>
    rw [hostEvent] at h
    split at h
    · cases h
    · cases h
      exact Nat.le_add_right _ _
  | attachSink | foreignWrite =>
    rw [hostEvent] at h
    split at h
    · cases h
    · cases h
      exact le_rfl
  | issue | takeEnc | takeDec | await | awaitEnc | awaitDec | reset =>
    cases h
    exact le_rfl

/-! ### The streams in a step -/

/-- A step is a turn of ENC, a turn of DEC, a turn of the host that changes nothing, or the host's next event. -/
theorem step_turns {s t : State} (h : step s = .next t) :
    t = encNext (advance s) ∨ t = decNext (advance s) ∨ t = advance s ∨
      ∃ e es, s.inputs = e :: es ∧ hostEvent ((advance s).setInputs es) e = .next t := by
  cases ha : nextAgent s with
  | enc =>
    rw [step_enc ha] at h
    cases h
    exact .inl rfl
  | dec =>
    rw [step_dec ha] at h
    cases h
    exact .inr (.inl rfl)
  | host =>
    rw [step, ha] at h
    exact .inr (.inr (hostStep_next h))

theorem step_sink_grows {s t : State} (h : step s = .next t) (hne : ∀ k es, s.inputs ≠ .attachSink k :: es) :
    ∃ l, t.sink.content = s.sink.content ++ l := by
  obtain rfl | rfl | rfl | ⟨e, es, hi, he⟩ := step_turns h
  · exact encNext_sink_grows (advance s)
  · rw [decNext_eq]
    exact ⟨[], (List.append_nil _).symm⟩
  · exact ⟨[], (List.append_nil _).symm⟩
  · exact hostEvent_sink_grows (s := (advance s).setInputs es) (fun k hk => hne k es (hk ▸ hi)) he

theorem position_le_step {s t : State} (h : step s = .next t) (hne : ∀ c es, s.inputs ≠ .attachSource c :: es) :
    s.source.position ≤ t.source.position := by
  obtain rfl | rfl | rfl | ⟨e, es, hi, he⟩ := step_turns h
  · rw [encNext_eq]
    exact le_rfl
  · exact position_le_decNext (advance s)
  · exact le_rfl
  · exact position_le_hostEvent (s := (advance s).setInputs es) (fun c hc => hne c es (hc ▸ hi)) he

/-! ### Answers that do not depend on the place of the turn (U10) -/

/-- An answer of the sink that is no free draw is the same wherever the sink is. -/
theorem sinkAnswer_of_covered {s u : State} (hcov : s.sink.answers ≠ [] ∨ s.sink.rest = .accepts)
    (hsink : u.sink = s.sink) : u.sinkAnswer = s.sinkAnswer := by
  unfold State.sinkAnswer
  rw [hsink]
  cases hl : s.sink.answers with
  | cons a l => rfl
  | nil =>
    have hrest : s.sink.rest = .accepts := hcov.resolve_left (· hl)
    rw [hrest]

/-- An answer of the source that is no free draw is the same wherever the source is and, through a loopback, the sink
holds the same byte at its position. -/
theorem sourceAnswer_of_covered {s u : State}
    (hcov : s.source.answers ≠ [] ∨ s.source.rest = .ends ∨ (s.source.rest = .loopback ∧
      u.sink.content[s.source.position]? = s.sink.content[s.source.position]?))
    (hsource : u.source = s.source) : u.sourceAnswer = s.sourceAnswer := by
  unfold State.sourceAnswer
  rw [hsource]
  cases hl : s.source.answers with
  | cons a l => rfl
  | nil =>
    obtain hends | ⟨hloop, hbyte⟩ := hcov.resolve_left (· hl)
    · rw [hends]
    · rw [hloop, hbyte]

/-- The byte that a loopback supplies is the same after a turn of ENC, unless ENC writes and the source has caught up
with the sink. -/
theorem getElem?_encNext_sink {s : State} {n : Nat} (h : s.enc.st = .idle ∨ n < s.sink.content.length) :
    (encNext s).sink.content[n]? = s.sink.content[n]? := by
  obtain hidle | hlt := h
  · rw [encNext_sink_of_idle hidle]
  · obtain ⟨l, hl⟩ := encNext_sink_grows s
    rw [hl, List.getElem?_append_left hlt]

/-! ### A turn of each unit, in either order (R68) -/

/-- The premises of `Obligations.UnitTurnsCommute` for ENC: the sink answers its turn by no free draw. -/
def SinkCovered (s : State) : Prop := s.enc.st = .idle ∨ s.sink.answers ≠ [] ∨ s.sink.rest = .accepts

/-- The premises of `Obligations.UnitTurnsCommute` for DEC: the source answers its turn by no free draw, and by no byte
that ENC might write first. -/
def SourceCovered (s : State) : Prop :=
  s.dec.st = .idle ∨ s.source.answers ≠ [] ∨ s.source.rest = .ends ∨
    (s.source.rest = .loopback ∧ (s.enc.st = .idle ∨ s.source.position < s.sink.content.length))

theorem SinkCovered.sinkAnswer_eq {s u : State} (h : SinkCovered s) (hr : s.enc.st = .run) (hsink : u.sink = s.sink) :
    u.sinkAnswer = s.sinkAnswer :=
  sinkAnswer_of_covered (h.resolve_left (by simp [hr])) hsink

/-- The source answers the same before and after a turn of ENC. -/
theorem SourceCovered.sourceAnswer_eq {s u : State} (h : SourceCovered s) (hr : s.dec.st = .run)
    (hsource : u.source = s.source) (hsink : u.sink = s.sink ∨ u.sink = (encNext s).sink) :
    u.sourceAnswer = s.sourceAnswer := by
  refine sourceAnswer_of_covered ?_ hsource
  obtain hans | hends | ⟨hloop, hahead⟩ := h.resolve_left (by simp [hr])
  · exact .inl hans
  · exact .inr (.inl hends)
  · refine .inr (.inr ⟨hloop, ?_⟩)
    obtain hsame | hturn := hsink
    · rw [hsame]
    · rw [hturn, getElem?_encNext_sink hahead]

/-- The two sides are apart, and the offers are taken from in either order. -/
theorem State.afterEnc_afterDec (u s : State) : (u.afterEnc s).afterDec s = (u.afterDec s).afterEnc s := by
  have hoffers := offersLeft_comm (own := fun w => !opBit w) (other := opBit) (fun w hw => by simp [hw])
    s.enc.st s.dec.st u.offers
  simp only [State.afterEnc, State.afterDec, hoffers]

/-- The state of `UnitTurnsCommute` after both turns: each side as its unit's turn in `s` leaves it. -/
def afterBoth (s : State) (turns : List Agent) : State :=
  ({ s with sched := turns, draws := s.draws + 2 }.afterEnc s).afterDec s

theorem runSteps_enc_dec {s : State} (hsink : SinkCovered s) (hsource : SourceCovered s) (turns : List Agent) :
    runSteps 2 { s with sched := .enc :: .dec :: turns } = .next (afterBoth s turns) := by
  have henc : SameForEnc s (advance { s with sched := .enc :: .dec :: turns }) :=
    ⟨rfl, rfl, rfl, rfl, fun hr => hsink.sinkAnswer_eq hr rfl⟩
  have hdec : SameForDec s (advance ((advance { s with sched := .enc :: .dec :: turns }).afterEnc s)) :=
    ⟨rfl, rfl, rfl, find?_offersLeft (fun w hw => by simpa using hw) _ _,
      fun hr => hsource.sourceAnswer_eq hr rfl (.inr rfl)⟩
  rw [runSteps_succ 1 (step_enc rfl), henc.encNext_eq, runSteps_succ 0 (step_dec rfl), hdec.decNext_eq]
  rfl

theorem runSteps_dec_enc {s : State} (hsink : SinkCovered s) (hsource : SourceCovered s) (turns : List Agent) :
    runSteps 2 { s with sched := .dec :: .enc :: turns } = .next (afterBoth s turns) := by
  have hdec : SameForDec s (advance { s with sched := .dec :: .enc :: turns }) :=
    ⟨rfl, rfl, rfl, rfl, fun hr => hsource.sourceAnswer_eq hr rfl (.inl rfl)⟩
  have henc : SameForEnc s (advance ((advance { s with sched := .dec :: .enc :: turns }).afterDec s)) :=
    ⟨rfl, rfl, rfl, find?_offersLeft (fun w hw => by simp [hw]) _ _, fun hr => hsink.sinkAnswer_eq hr rfl⟩
  rw [runSteps_succ 1 (step_dec rfl), hdec.decNext_eq, runSteps_succ 0 (step_enc rfl), henc.encNext_eq]
  rw [afterBoth, State.afterEnc_afterDec]
  rfl

end Sys2Proof.Machine

/-! ### The statements -/

namespace Sys2Proof.Proofs

open Sys2Proof.Machine

/-- Settles O18: the byte at a position is the chunk of what is left of the pattern there. -/
theorem chunkBitsArePatternBits : Obligations.ChunkBitsArePatternBits := by
  unfold Obligations.ChunkBitsArePatternBits
  intro u p _
  refine ⟨fun i hi => ?_, (contBit_encByte u p).trans (shiftRight_ne_zero_iff u (7 * (p + 1)))⟩
  rw [encByte_eq_chunkOf, chunkOf, chunkByte_getLsbD hi, lowData_getLsbD hi, BitVec.getLsbD_ushiftRight]

/-- Settles O35, by the three outcomes of a DECODE. -/
theorem decodeConsumesByOutcome : Obligations.DecodeConsumesByOutcome := by
  unfold Obligations.DecodeConsumesByOutcome
  intro a
  have hcont (k : Nat) : stopsAt (a k) = false → ∃ b : Byte, a k = .byte b ∧ 128 ≤ b.toNat :=
    (stopsAt_eq_false_iff (a k)).1
  obtain ⟨hout, hbytes⟩ | ⟨k, m, hout, hk, ha, hbytes⟩ | ⟨k, b, w, hout, hk, ha, hb, hbytes⟩ :=
    decOutcome_cases a
  · rw [hout]
    refine ⟨fun v n h => (by cases h), fun e n h => ?_⟩
    cases h
    exact ⟨fun j hj => hcont j (hbytes j hj), .inl ⟨rfl, rfl⟩⟩
  · rw [hout]
    refine ⟨fun v n h => (by cases h), fun e n h => ?_⟩
    cases h
    exact ⟨fun j hj => hcont j (hbytes j hj), .inr ⟨rfl, Nat.le_of_lt_succ hk, m, ha⟩⟩
  · rw [hout]
    refine ⟨fun v n h => ?_, fun e n h => (by cases h)⟩
    cases h
    exact ⟨Nat.le_add_left 1 k, hk, fun j hj => hcont j (hbytes j (Nat.lt_of_succ_lt_succ hj)), b, ha, hb⟩

/-- Settles O49: a unit's turn writes its own side alone. -/
theorem unitTurnsLeaveTheOtherUnit : Obligations.UnitTurnsLeaveTheOtherUnit := by
  unfold Obligations.UnitTurnsLeaveTheOtherUnit
  constructor
  · intro s t ha h
    rw [step_enc ha, encNext_eq] at h
    cases h
    exact ⟨rfl, rfl, rfl, rfl⟩
  · intro s t ha h
    rw [step_dec ha, decNext_eq] at h
    cases h
    exact ⟨rfl, rfl, rfl, rfl⟩

/-- Settles O50: each turn reads its own side alone, so it is the same turn before and after the other unit's. -/
theorem unitTurnsCommute : Obligations.UnitTurnsCommute := by
  unfold Obligations.UnitTurnsCommute
  intro s turns hsink hsource
  exact ⟨afterBoth s turns, runSteps_enc_dec hsink hsource turns, runSteps_dec_enc hsink hsource turns⟩

/-- Settles O55: a turn of ENC writes at most once to the sink, a turn of DEC reads at most once from the source, and
another agent's access is of the same form. -/
theorem streamsOnlyAdvance : Obligations.StreamsOnlyAdvance := by
  unfold Obligations.StreamsOnlyAdvance
  refine ⟨fun s t => step_sink_grows, ?acceptedWrite, fun s t => position_le_step, ?suppliedByte⟩
  case acceptedWrite =>
    intro s t ha hr hok h
    rw [step_enc ha] at h
    cases h
    rw [encNext_sink_of_run (s := advance s) hr, hok]
    exact List.length_append
  case suppliedByte =>
    intro s t b ha hr hb h
    rw [step_dec ha] at h
    cases h
    rw [decNext_source_of_run (s := advance s) hr, hb]
    rfl

/-- Settles O57: at an attachment the host does not wait, and the run-state flag of the unit decides. -/
theorem streamsAttachedBetweenOperationsOnly : Obligations.StreamsAttachedBetweenOperationsOnly := by
  unfold Obligations.StreamsAttachedBetweenOperationsOnly
  constructor
  · intro s k es ha hi
    rw [step_of_hostActs ha hi rfl, hostEvent_attachSink]
    exact ⟨fun hr => if_neg (by simp [hr]), fun hr => if_pos hr⟩
  · intro s c es ha hi
    rw [step_of_hostActs ha hi rfl, hostEvent_attachSource]
    exact ⟨fun hr => if_neg (by simp [hr]), fun hr => if_pos hr⟩

end Sys2Proof.Proofs

/-! PROOFS. The words of CORE, the encodings of VarInt values, and the lines of a program (30_encoding). -/

/-! ### Command words and chunks (R81, R82, R83, R95) -/

namespace Sys2Proof

open Sys2Proof.Machine

@[simp] theorem decodeWord_cmd (w : CmdWord) : decodeWord (.cmd w) = decodeCmd w := rfl

@[simp] theorem decodeWord_chunk (b : Byte) : decodeWord (.chunk b) = decodeChunk b := rfl

theorem opBit_of_and_mask_set {w : CmdWord} (h : w &&& 0x10000000000000000 = 0x10000000000000000) :
    opBit w = true := by
  rw [opMask] at h
  cases hop : opBit w with
  | true => rfl
  | false =>
    rw [hop] at h
    exact absurd h (by decide)

theorem opBit_of_and_mask_clear {w : CmdWord} (h : w &&& 0x10000000000000000 = 0) : opBit w = false := by
  rw [opMask] at h
  cases hop : opBit w with
  | false => rfl
  | true =>
    rw [hop] at h
    exact absurd h (by decide)

theorem contBit_iff_and_mask (b : Byte) : contBit b = true ↔ b &&& 0x80 = 0x80 := by revert b; decide

theorem contBit_eq_false_iff_and_mask (b : Byte) : contBit b = false ↔ b &&& 0x80 = 0x00 := by revert b; decide

/-- The operand of an ENCODE word is the word's number, taken as a signed 64-bit number (R6, R95). -/
theorem s64_valueField_of_lt {w : CmdWord} (h : w.toNat < 2 ^ 64) :
    s64 (valueField w) = if w.toNat < 2 ^ 63 then (w.toNat : Int) else (w.toNat : Int) - 2 ^ 64 := by
  have hv : (valueField w).toNat = w.toNat := (valueField_toNat w).trans (Nat.mod_eq_of_lt h)
  split
  next hlt => rw [s64_of_lt (hv ▸ hlt), hv]
  next hle => rw [s64_of_le (hv ▸ Nat.not_lt.1 hle), hv]

theorem dataField_of_cont {b : Byte} (h : contBit b = true) : dataField b = BitVec.ofNat 7 (b.toNat - 128) := by
  rw [contBit_iff] at h
  apply BitVec.eq_of_toNat_eq
  rw [dataField_toNat, BitVec.toNat_ofNat]
  omega

theorem dataField_eq_ofNat (b : Byte) : dataField b = BitVec.ofNat 7 b.toNat := by
  apply BitVec.eq_of_toNat_eq
  rw [dataField_toNat, BitVec.toNat_ofNat]

/-- What is encoded is decoded again, whatever the operand. -/
theorem decodeWord_encodeWord {i : Instr} (h : i.wf = true) : decodeWord (encodeWord i) = i := by
  cases i with
  | encode v =>
    calc decodeCmd (cmdWord false (u64 v))
      _ = .encode (s64 (u64 v)) := by rw [decodeCmd_of_encode (opBit_cmdWord _ _), valueField_cmdWord]
      _ = .encode v := by rw [s64_u64 h]
  | decode => exact decodeCmd_of_decode (opBit_cmdWord true 0)
  | chunkCont d => exact (decodeChunk_of_cont (contBit_chunkByte true d)).trans (by rw [dataField_chunkByte])
  | chunkLast d => exact (decodeChunk_of_last (contBit_chunkByte false d)).trans (by rw [dataField_chunkByte])

theorem wf_decodeWord (w : InstrWord) : (decodeWord w).wf = true := by
  cases w with
  | cmd w =>
    cases hop : opBit w with
    | true => rw [decodeWord_cmd, decodeCmd_of_decode hop, Instr.wf]
    | false =>
      rw [decodeWord_cmd, decodeCmd_of_encode hop]
      exact inValueRange_s64 (valueField w)
  | chunk b =>
    cases hc : contBit b with
    | true => rw [decodeWord_chunk, decodeChunk_of_cont hc, Instr.wf]
    | false => rw [decodeWord_chunk, decodeChunk_of_last hc, Instr.wf]

/-- A chunk is encoded again as itself: its two fields are the whole of it. -/
theorem encodeWord_decodeChunk (b : Byte) : encodeWord (decodeChunk b) = .chunk b := by
  have hb := chunkByte_fields b
  cases hc : contBit b with
  | true => rw [decodeChunk_of_cont hc, encodeWord, ← hc, hb]
  | false => rw [decodeChunk_of_last hc, encodeWord, ← hc, hb]

/-- An ENCODE word is encoded again as itself. -/
theorem encodeWord_decodeCmd_of_encode {w : CmdWord} (h : opBit w = false) :
    encodeWord (decodeCmd w) = .cmd w := by
  have hw := cmdWord_fields w
  rw [decodeCmd_of_encode h, encodeWord, u64_s64, ← h, hw]

/-- A DECODE word is encoded again in its canonical spelling, whatever its value bits. -/
theorem encodeWord_decodeCmd_of_decode {w : CmdWord} (h : opBit w = true) :
    encodeWord (decodeCmd w) = .cmd 0x10000000000000000 := by
  rw [decodeCmd_of_decode h]
  exact congrArg InstrWord.cmd (by decide)

/-! ### The response word (R96, R201) -/

/-- The response word of a unit, a status and a value. -/
def rspWord (unit : Bool) (status : BitVec 3) (value : Pattern) : RspWord := BitVec.ofBool unit ++ status ++ value

theorem encodeRsp_enc_ok (absent : Pattern) : encodeRsp absent (.enc .ok) = rspWord false 0 absent := rfl

theorem encodeRsp_enc_err (absent : Pattern) (e : ErrorKind) :
    encodeRsp absent (.enc (.err e)) = rspWord false (errorCode e) absent := rfl

theorem encodeRsp_dec_ok (absent : Pattern) (v : Int) :
    encodeRsp absent (.dec (.ok v)) = rspWord true 0 (u64 v) := rfl

theorem encodeRsp_dec_err (absent : Pattern) (e : ErrorKind) :
    encodeRsp absent (.dec (.err e)) = rspWord true (errorCode e) absent := rfl

theorem rspWord_toNat (unit : Bool) (status : BitVec 3) (value : Pattern) :
    (rspWord unit status value).toNat = (8 * unit.toNat + status.toNat) * 2 ^ 64 + value.toNat := by
  have h1 : (BitVec.ofBool unit ++ status).toNat = 2 ^ 3 * unit.toNat + status.toNat := by
    rw [BitVec.toNat_append, ← Nat.shiftLeft_add_eq_or_of_lt status.isLt, Nat.shiftLeft_eq, Nat.mul_comm,
      BitVec.toNat_ofBool]
  have h2 : (rspWord unit status value).toNat = 2 ^ 64 * (BitVec.ofBool unit ++ status).toNat + value.toNat := by
    rw [rspWord, BitVec.toNat_append, ← Nat.shiftLeft_add_eq_or_of_lt value.isLt, Nat.shiftLeft_eq, Nat.mul_comm]
  omega

theorem rspWord_toNat_div (unit : Bool) (status : BitVec 3) (value : Pattern) :
    (rspWord unit status value).toNat / 2 ^ 64 = 8 * unit.toNat + status.toNat := by
  have := value.isLt
  rw [rspWord_toNat]
  omega

/-- The status field of a response word, as a number (R96). -/
theorem statusField_toNat (w : RspWord) : (w.extractLsb' 64 3).toNat = w.toNat / 2 ^ 64 % 8 := by
  rw [BitVec.extractLsb'_toNat, Nat.shiftRight_eq_div_pow]

/-- The unit field of a response word, as a number (R96). -/
theorem unitBit_toNat (w : RspWord) : (w.getLsbD 67).toNat = w.toNat / 2 ^ 64 / 8 := by
  have := w.isLt
  rw [BitVec.getLsbD, Nat.toNat_testBit]
  omega

@[simp] theorem statusField_rspWord (unit : Bool) (status : BitVec 3) (value : Pattern) :
    (rspWord unit status value).extractLsb' 64 3 = status := by
  apply BitVec.eq_of_toNat_eq
  have := status.isLt
  rw [statusField_toNat, rspWord_toNat_div]
  omega

@[simp] theorem unitBit_rspWord (unit : Bool) (status : BitVec 3) (value : Pattern) :
    (rspWord unit status value).getLsbD 67 = unit := by
  have hnat : ((rspWord unit status value).getLsbD 67).toNat = unit.toNat := by
    have := status.isLt
    rw [unitBit_toNat, rspWord_toNat_div]
    omega
  rw [← Bool.ofNat_toNat ((rspWord unit status value).getLsbD 67), hnat, Bool.ofNat_toNat]

@[simp] theorem rspValue_rspWord (unit : Bool) (status : BitVec 3) (value : Pattern) :
    (rspWord unit status value).extractLsb' 0 64 = value := by
  apply BitVec.eq_of_toNat_eq
  have := value.isLt
  rw [BitVec.extractLsb'_toNat, rspWord_toNat, Nat.shiftRight_zero]
  omega

@[simp] theorem statusOf_zero : statusOf 0#3 = .ok none := rfl

@[simp] theorem statusOf_errorCode (e : ErrorKind) : statusOf (errorCode e) = .ok (some e) := by
  cases e <;> rfl

/-- The codes 5, 6 and 7 are reserved (R201). -/
theorem statusOf_reserved {c : BitVec 3} (h : 5 ≤ c.toNat) : statusOf c = .error c := by
  have hne (k : BitVec 3) (hk : k.toNat < 5) : c ≠ k := fun hc => absurd (hc ▸ h) (Nat.not_le.2 hk)
  simp [statusOf, hne]

/-- The host reads back the response of a word, whatever the absent bits are (R118). -/
theorem decodeRsp_encodeRsp (absent : Pattern) {r : Rsp} (h : r.wf = true) :
    decodeRsp (encodeRsp absent r) = .ok r := by
  match r with
  | .enc .ok => simp [decodeRsp, encodeRsp_enc_ok, -BitVec.getLsbD_eq_getElem]
  | .enc (.err e) => simp [decodeRsp, encodeRsp_enc_err, -BitVec.getLsbD_eq_getElem]
  | .dec (.ok v) => simp [decodeRsp, encodeRsp_dec_ok, s64_u64 (show inValueRange v = true from h)]
  | .dec (.err e) => simp [decodeRsp, encodeRsp_dec_err]

theorem decodeRsp_of_reserved {w : RspWord} (h : 5 ≤ (w.extractLsb' 64 3).toNat) :
    decodeRsp w = .error (w.extractLsb' 64 3) := by
  simp [decodeRsp, statusOf_reserved h]

end Sys2Proof

namespace Sys2Proof.Machine

theorem hostReadRsp_encodeRsp (absent : Pattern) {r : Rsp} (h : r.wf = true) :
    hostReadRsp (encodeRsp absent r) = .next r := by
  simp [hostReadRsp, decodeRsp_encodeRsp absent h]

/-- A reserved status stops the host's reading with its code (U8). -/
theorem hostReadRsp_of_reserved {w : RspWord} (h : 5 ≤ w.toNat / 2 ^ 64 % 8) :
    hostReadRsp w = .fault (.reservedStatus (BitVec.ofNat 3 (w.toNat / 2 ^ 64))) := by
  have hcode : w.extractLsb' 64 3 = BitVec.ofNat 3 (w.toNat / 2 ^ 64) := by
    apply BitVec.eq_of_toNat_eq
    rw [statusField_toNat, BitVec.toNat_ofNat]
  rw [← statusField_toNat] at h
  simp [hostReadRsp, decodeRsp_of_reserved h, hcode]

end Sys2Proof.Machine

/-! ### Well-formed encodings (R84, R86) -/

namespace Sys2Proof.Machine

/-- A well-formed encoding is up to four chunks that continue and one that does not. -/
theorem wellFormedEncoding_iff (bs : List Byte) :
    wellFormedEncoding bs = true ↔
      ∃ cs b, bs = cs ++ [b] ∧ cs.length ≤ 4 ∧ (∀ c ∈ cs, contBit c = true) ∧ contBit b = false := by
  obtain rfl | ⟨cs, b, rfl⟩ := List.eq_nil_or_concat' bs
  · simp [wellFormedEncoding]
  · simp [wellFormedEncoding, and_assoc, Nat.lt_succ_iff]

/-- After a well-formed encoding nothing can follow within another: its last chunk does not continue. -/
theorem eq_of_wellFormedEncoding_append {as bs cs : List Byte} (ha : wellFormedEncoding as = true)
    (hb : wellFormedEncoding bs = true) (h : bs = as ++ cs) : as = bs := by
  obtain ⟨as', a, rfl, -, -, hlast⟩ := (wellFormedEncoding_iff as).1 ha
  obtain ⟨bs', b, rfl, -, hcont, -⟩ := (wellFormedEncoding_iff bs).1 hb
  obtain rfl | ⟨cs', c, rfl⟩ := List.eq_nil_or_concat' cs
  · exact (List.append_nil _ ▸ h).symm
  · rw [← List.append_assoc] at h
    have hinit : bs' = as' ++ [a] ++ cs' := (List.append_inj' h rfl).1
    have hmem : a ∈ bs' := by simp [hinit]
    rw [hcont a hmem] at hlast
    cases hlast

@[simp] theorem denoted_nil : denoted [] = 0 := rfl

/-- One chunk more adds its data field at the next 7 bits. -/
theorem denoted_append_singleton (bs : List Byte) (b : Byte) :
    denoted (bs ++ [b]) = 2 ^ (7 * bs.length) * (dataField b).toNat + denoted bs := by
  simp [denoted, List.zipIdx_append, Nat.add_comm, Nat.mul_comm]

theorem denoted_lt (bs : List Byte) : denoted bs < 2 ^ (7 * bs.length) := by
  induction bs using List.reverseRecOn with
  | nil => exact Nat.one_pos
  | append_singleton bs b ih =>
    rw [denoted_append_singleton]
    calc 2 ^ (7 * bs.length) * (dataField b).toNat + denoted bs
      _ < 2 ^ (7 * bs.length) * ((dataField b).toNat + 1) := by rw [Nat.mul_succ]; omega
      _ ≤ 2 ^ (7 * bs.length) * 2 ^ 7 := Nat.mul_le_mul_left _ (dataField b).isLt
      _ = 2 ^ (7 * (bs ++ [b]).length) := by rw [← Nat.pow_add, List.length_append]; rfl

theorem dataField_testBit {i : Nat} (hi : i < 7) (b : Byte) : (dataField b).toNat.testBit i = b.getLsbD i := by
  rw [dataField_toNat, show 128 = 2 ^ 7 from rfl, Nat.testBit_mod_two_pow]
  simp [hi, BitVec.getLsbD]

/-- Bit `7p + i` of the denoted value is bit `i` of the chunk at position `p` (R60, R61). -/
theorem denoted_testBit {bs : List Byte} {p i : Nat} (hp : p < bs.length) (hi : i < 7) :
    (denoted bs).testBit (7 * p + i) = (bs.getD p 0).getLsbD i := by
  induction bs using List.reverseRecOn with
  | nil => exact absurd hp (Nat.not_lt_zero p)
  | append_singleton bs b ih =>
    rw [denoted_append_singleton, Nat.testBit_two_pow_mul_add _ (denoted_lt bs)]
    rw [List.length_append, List.length_singleton] at hp
    by_cases hlt : p < bs.length
    · rw [if_pos (by omega), ih hlt, List.getD_append _ _ _ _ hlt]
    · obtain rfl : p = bs.length := by omega
      rw [if_neg (by omega), Nat.add_sub_cancel_left, dataField_testBit hi]
      simp

/-- The denoted value has no bit past its chunks. -/
theorem denoted_testBit_of_le {bs : List Byte} {j : Nat} (h : 7 * bs.length ≤ j) : (denoted bs).testBit j = false :=
  Nat.testBit_lt_two_pow ((denoted_lt bs).trans_le (Nat.pow_le_pow_right (by decide) h))

/-- A well-formed encoding has at most 35 data bits (R7). -/
theorem denoted_lt_of_wellFormed {bs : List Byte} (h : wellFormedEncoding bs = true) : denoted bs < 2 ^ 35 := by
  obtain ⟨cs, b, rfl, hlen, -, -⟩ := (wellFormedEncoding_iff bs).1 h
  refine (denoted_lt _).trans_le (Nat.pow_le_pow_right (by decide) ?_)
  rw [List.length_append, List.length_singleton]
  omega

end Sys2Proof.Machine

/-! ### The host's turns at the lines of a program (R98) -/

namespace Sys2Proof.Machine

open Sys2Proof.Safety

/-- A turn of the host in the schedule, at an event that it does not wait at and whose effect is known. -/
theorem runSteps_of_hostEvent {s t : State} {e : HostEvent} {es : List HostEvent} {turns : List Agent} (k : Nat)
    (hs : s.sched = .host :: turns) (hi : s.inputs = e :: es) (hw : hostWaits s e = false)
    (ht : hostEvent { advance s with inputs := es } e = .next t) : runSteps (k + 1) s = runSteps k t :=
  runSteps_succ k ((step_of_hostActs (nextAgent_cons s hs) hi hw).trans ht)

/-- Commands that are issued one after the other stand behind those already offered, in their order. -/
theorem runSteps_issue (ws : List CmdWord) {s : State} {es : List HostEvent} {turns : List Agent}
    (hi : s.inputs = ws.map .issue ++ es) (hs : s.sched = List.replicate ws.length .host ++ turns) :
    runSteps ws.length s = .next { s with
      inputs := es, offers := s.offers ++ ws, sched := turns, draws := s.draws + ws.length } := by
  induction ws generalizing s with
  | nil =>
    obtain rfl : s.inputs = es := hi
    obtain rfl : s.sched = turns := hs
    simp
  | cons w ws ih =>
    rw [List.length_cons, runSteps_of_hostEvent ws.length hs hi rfl rfl, ih rfl (by simp [hs, List.replicate_succ])]
    simp [State.setOffers, Nat.add_assoc, Nat.add_comm 1]

/-! #### What the host issues and waits for -/

theorem commandEvents_cons (b : Before) (line : ProgramLine) (p : List ProgramLine) :
    commandEvents b (line :: p) = lineEvents b line ++ commandEvents (b.after line) p := rfl

theorem lineEvents_of_command {line : ProgramLine} (h : lineWords line ≠ []) (b : Before) :
    lineEvents b line = b.waits ++ (lineWords line).map .issue := by
  cases line with
  | encode v => rfl
  | decode => rfl
  | both v => rfl
  | reset | source | sinkOk | sinkFailAt | loopback => exact absurd rfl h

/-- The host waits at a line of commands where it waits for what stands before the line. -/
theorem step_of_lineWaits {s : State} {b : Before} {line : ProgramLine} {e : HostEvent} {es : List HostEvent}
    (hl : lineWords line ≠ []) (hb : b.waits = [e]) (ha : nextAgent s = .host)
    (hi : s.inputs = lineEvents b line ++ es) (hw : hostWaits s e = true) : step s = .next (advance s) := by
  rw [lineEvents_of_command hl, hb] at hi
  exact step_of_hostWaits ha hi hw

/-- Before a line of commands the host waits for nothing, or at one event that has no effect of its own. -/
theorem Before.waits_cases (b : Before) : b.waits = [] ∨ ∃ e, b.waits = [e] ∧ ∀ s, hostEvent s e = .next s := by
  cases b with
  | nothing | both => exact .inl rfl
  | enc | dec | bothThenReset => exact .inr ⟨_, rfl, fun _ => rfl⟩

theorem Before.length_waits (b : Before) : b.waits.length = if b = .nothing ∨ b = .both then 0 else 1 := by
  cases b <;> rfl

/-- A line of commands that the host no longer waits at: one turn for the wait, if there is one, and one for each
command. -/
theorem runSteps_commandLine {s : State} {b : Before} {line : ProgramLine} {es : List HostEvent} {turns : List Agent}
    (hl : lineWords line ≠ []) (hi : s.inputs = lineEvents b line ++ es)
    (hw : ∀ e ∈ b.waits, hostWaits s e = false)
    (hs : s.sched = List.replicate (b.waits.length + (lineWords line).length) .host ++ turns) :
    runSteps (b.waits.length + (lineWords line).length) s = .next { s with
      inputs := es, offers := s.offers ++ lineWords line, sched := turns
      draws := s.draws + (b.waits.length + (lineWords line).length) } := by
  rw [lineEvents_of_command hl] at hi
  obtain hb | ⟨e, hb, he⟩ := b.waits_cases
  · rw [hb, List.length_nil, Nat.zero_add] at hs ⊢
    rw [hb] at hi
    exact runSteps_issue _ hi hs
  · rw [hb, List.length_singleton, Nat.add_comm] at hs ⊢
    rw [hb] at hi
    rw [runSteps_of_hostEvent _ hs hi (hw e (by simp [hb])) (he _),
      runSteps_issue (turns := turns) _ rfl (by simp [hs, List.replicate_succ])]
    simp [Nat.add_assoc, Nat.add_comm 1]

/-- A RESET line at whatever stands before it: the host waits for nothing (R242). -/
theorem step_lineReset {s : State} {b : Before} {es : List HostEvent} (ha : nextAgent s = .host)
    (hi : s.inputs = lineEvents b .reset ++ es) :
    step s = .next { advance s with enc := Enc.cleared, dec := Dec.cleared, inputs := es } :=
  step_of_hostActs ha hi rfl

/-! #### The environment of a program (R51, R98) -/

theorem filterMap_lineSink_eq_nil {p : List ProgramLine} (hfail : ∀ k, .sinkFailAt k ∉ p) (hok : .sinkOk ∉ p) :
    p.filterMap lineSink = [] := by
  refine List.filterMap_eq_nil_iff.2 fun line hmem => ?_
  cases line with
  | sinkOk => exact absurd hmem hok
  | sinkFailAt k => exact absurd hmem (hfail k)
  | encode | decode | both | reset | source | loopback => rfl

/-- A program without a sink line describes no sink. -/
theorem programSink_eq_none {p : List ProgramLine} (h : p.filterMap lineSink = []) : programSink p = none := by
  rw [programSink, h, List.getLast?_nil]

/-- The last sink line of a program holds. -/
theorem programSink_append_cons {line : ProgramLine} {k : Sink} (p : List ProgramLine) {q : List ProgramLine}
    (hk : lineSink line = some k) (hq : q.filterMap lineSink = []) : programSink (p ++ line :: q) = some k := by
  rw [programSink, List.filterMap_append, List.filterMap_cons_some hk, hq, List.getLast?_concat]

theorem filterMap_lineBytes_eq_nil {p : List ProgramLine} (h : ∀ c, .source c ∉ p) : p.filterMap lineBytes = [] := by
  refine List.filterMap_eq_nil_iff.2 fun line hmem => ?_
  cases line with
  | source c => exact absurd hmem (h c)
  | encode | decode | both | reset | sinkOk | sinkFailAt | loopback => rfl

theorem programSource_of_loopback {p : List ProgramLine} (h : .loopback ∈ p) : programSource p = some refLoopback :=
  if_pos h

/-- A program without a source line or a loopback line describes no source. -/
theorem programSource_eq_none {p : List ProgramLine} (hl : .loopback ∉ p) (hp : p.filterMap lineBytes = []) :
    programSource p = none := by
  rw [programSource, if_neg hl, if_pos hp]

/-- The bytes of the one source line of a program are its source. -/
theorem programSource_append_cons {p q : List ProgramLine} (bytes : List Byte) (hlp : .loopback ∉ p)
    (hlq : .loopback ∉ q) (hp : p.filterMap lineBytes = []) (hq : q.filterMap lineBytes = []) :
    programSource (p ++ .source bytes :: q) = some (refSource bytes) := by
  have hbytes : (p ++ .source bytes :: q).filterMap lineBytes = [bytes] := by
    simp [hp, hq, lineBytes]
  rw [programSource, if_neg (by simp [hlp, hlq]), hbytes, if_neg (List.cons_ne_nil _ _), List.flatten_singleton]

/-- A sink described by a program is attached in a turn of the host; without one there is no turn. -/
theorem runSteps_attachSink (k : Option Sink) {s : State} {es : List HostEvent} {turns : List Agent}
    (hr : s.enc.st = .idle) (hi : s.inputs = k.toList.map .attachSink ++ es)
    (hs : s.sched = List.replicate k.toList.length .host ++ turns) :
    runSteps k.toList.length s = .next { s with
      inputs := es, sink := k.getD s.sink, sched := turns, draws := s.draws + k.toList.length } := by
  cases k with
  | none =>
    obtain rfl : s.inputs = es := hi
    obtain rfl : s.sched = turns := hs
    rfl
  | some k =>
    refine (runSteps_of_hostEvent 0 hs hi rfl ((hostEvent_attachSink _ k).trans (if_neg (by simp [hr])))).trans ?_
    simp [State.setSink, hs]

/-- A source described by a program is attached in a turn of the host; without one there is no turn. -/
theorem runSteps_attachSource (c : Option Source) {s : State} {es : List HostEvent} {turns : List Agent}
    (hr : s.dec.st = .idle) (hi : s.inputs = c.toList.map .attachSource ++ es)
    (hs : s.sched = List.replicate c.toList.length .host ++ turns) :
    runSteps c.toList.length s = .next { s with
      inputs := es, source := c.getD s.source, sched := turns, draws := s.draws + c.toList.length } := by
  cases c with
  | none =>
    obtain rfl : s.inputs = es := hi
    obtain rfl : s.sched = turns := hs
    rfl
  | some c =>
    refine (runSteps_of_hostEvent 0 hs hi rfl ((hostEvent_attachSource _ c).trans (if_neg (by simp [hr])))).trans ?_
    simp [State.setSource, hs]

theorem environmentEvents_append (p : List ProgramLine) (es : List HostEvent) :
    environmentEvents p ++ es = .await :: ((programSink p).toList.map .attachSink ++
      ((programSource p).toList.map .attachSource ++ es)) := by
  simp [environmentEvents]

theorem length_environmentEvents (p : List ProgramLine) :
    (environmentEvents p).length = (programSink p).toList.length + (programSource p).toList.length + 1 := by
  simp [environmentEvents, Nat.add_right_comm]

/-- With nothing outstanding the environment of a program is attached: a turn for the wait that has ended, then one for
each stream that the program describes. -/
theorem runSteps_environmentEvents {s : State} {p : List ProgramLine} {es : List HostEvent} {turns : List Agent}
    (hout : s.outstanding = false) (hi : s.inputs = environmentEvents p ++ es)
    (hs : s.sched = List.replicate (environmentEvents p).length .host ++ turns) :
    runSteps (environmentEvents p).length s = .next { s with
      inputs := es
      sink := (programSink p).getD s.sink
      source := (programSource p).getD s.source
      sched := turns
      draws := s.draws + (environmentEvents p).length } := by
  obtain ⟨-, hidleEnc, hidleDec⟩ := s.outstanding_eq_false_iff.1 hout
  rw [environmentEvents_append] at hi
  rw [length_environmentEvents, List.replicate_succ, List.replicate_add, List.cons_append, List.append_assoc] at hs
  rw [length_environmentEvents]
  have hturns : (advance s).sched = List.replicate (programSink p).toList.length .host ++
      (List.replicate (programSource p).toList.length .host ++ turns) := congrArg List.tail hs
  calc runSteps ((programSink p).toList.length + (programSource p).toList.length + 1) s
    _ = _ := runSteps_of_hostEvent _ hs hi hout rfl
    _ = _ := runSteps_add _ _ (runSteps_attachSink (programSink p) hidleEnc rfl hturns)
    _ = _ := runSteps_attachSource (programSource p) hidleDec rfl rfl
    _ = _ := by simp [Nat.add_assoc, Nat.add_comm 1]

end Sys2Proof.Machine

/-! ### The statements -/

namespace Sys2Proof.Proofs

open Sys2Proof.Machine Sys2Proof.Safety

/-- Settles O2, by the four rows of the opcode table. -/
theorem decodeOfEncodeIsTheInstruction : Obligations.DecodeOfEncodeIsTheInstruction := by
  unfold Obligations.DecodeOfEncodeIsTheInstruction
  exact fun i => decodeWord_encodeWord

/-- Settles O3: the fields of a word are the whole of it, but for the value bits of DECODE. -/
theorem encodeOfDecodeIsTheWord : Obligations.EncodeOfDecodeIsTheWord := by
  unfold Obligations.EncodeOfDecodeIsTheWord
  exact ⟨wf_decodeWord, encodeWord_decodeChunk,
    fun w h => encodeWord_decodeCmd_of_encode ((opBit_eq_false_iff w).2 h),
    fun w h => encodeWord_decodeCmd_of_decode ((opBit_iff w).2 h)⟩

/-- Settles O4: under its mask a word shows the bit that selects its row. -/
theorem wordsSelectedByMatchAndMask : Obligations.WordsSelectedByMatchAndMask := by
  unfold Obligations.WordsSelectedByMatchAndMask
  refine ⟨fun w h => decodeCmd_of_decode (opBit_of_and_mask_set h), fun w h => ?encode, fun b h => ?cont,
    fun b h => ?last⟩
  case encode =>
    have hop := opBit_of_and_mask_clear h
    rw [decodeWord_cmd, decodeCmd_of_encode hop, s64_valueField_of_lt ((opBit_eq_false_iff w).1 hop)]
  case cont =>
    have hc := (contBit_iff_and_mask b).2 h
    rw [decodeWord_chunk, decodeChunk_of_cont hc, dataField_of_cont hc]
  case last =>
    rw [decodeWord_chunk, decodeChunk_of_last ((contBit_eq_false_iff_and_mask b).2 h), dataField_eq_ofNat]

/-- Settles O5: each response word is its unit, its status and its value side by side, and the host reads the three
fields. -/
theorem responseWordLayoutAndReading : Obligations.ResponseWordLayoutAndReading := by
  unfold Obligations.ResponseWordLayoutAndReading
  refine ⟨rfl, rfl, rfl, rfl, fun absent => rspWord_toNat_div false 0 absent, fun absent e => ?encErr,
    fun absent v => rspWord_toNat true 0 (u64 v), fun absent e => rspWord_toNat_div true (errorCode e) absent,
    fun absent r => hostReadRsp_encodeRsp absent, fun w => hostReadRsp_of_reserved⟩
  case encErr => exact (rspWord_toNat_div false (errorCode e) absent).trans (Nat.zero_add _)

/-- Settles O38: the chunks of an encoding fill its bits from below, 7 each. -/
theorem denotedValueOfWellFormed : Obligations.DenotedValueOfWellFormed := by
  unfold Obligations.DenotedValueOfWellFormed
  intro bs h
  have hlt := denoted_lt_of_wellFormed h
  have hpattern : (BitVec.ofNat 64 (denoted bs)).toNat = denoted bs := by
    rw [BitVec.toNat_ofNat]
    omega
  refine ⟨hlt, ?_, by omega, fun p i => denoted_testBit, fun j => denoted_testBit_of_le⟩
  rw [s64_of_lt (by omega), hpattern]

/-- Settles O39: the chunk that ends an encoding does not continue, and within another one all but the last do. -/
theorem wellFormedEncodingsArePrefixFree : Obligations.WellFormedEncodingsArePrefixFree := by
  unfold Obligations.WellFormedEncodingsArePrefixFree
  rintro as bs ha hb ⟨cs, h⟩
  exact eq_of_wellFormedEncoding_append ha hb h

/-- Settles O59: at a line of commands the host waits for what stands before it, and then issues each command in a turn;
a RESET takes its turn at once. -/
theorem programLinesIssueInOrder : Obligations.ProgramLinesIssueInOrder := by
  unfold Obligations.ProgramLinesIssueInOrder
  refine ⟨?words, ?commands, fun p b bytes k => ⟨rfl, rfl, rfl, rfl⟩, ?waits, ?issues, fun s b es => step_lineReset⟩
  case words =>
    intro v hv
    have henc : decodeCmd (cmdWord false (u64 v)) = .encode v := decodeWord_encodeWord (i := .encode v) hv
    have hdec : decodeCmd (cmdWord true 0) = .decode := decodeWord_encodeWord (i := .decode) rfl
    simp only [lineWords, List.map_cons, List.map_nil, henc, hdec, and_self]
  case commands =>
    intro p b v
    refine ⟨rfl, rfl, rfl, rfl, rfl, fun hb => ?_⟩
    rw [commandEvents_cons, Before.after, if_neg hb]
  case waits =>
    intro s line es hl ha
    exact ⟨fun hi h => step_of_lineWaits hl rfl ha hi ((hostWaits_awaitEnc_iff s).2 h),
      fun hi h => step_of_lineWaits hl rfl ha hi ((hostWaits_awaitDec_iff s).2 h),
      fun hi h => step_of_lineWaits (e := .await) hl rfl ha hi (s.outstanding_iff.2 h)⟩
  case issues =>
    intro s b line es turns hl hi henc hdec hboth
    rw [← b.length_waits]
    refine runSteps_commandLine hl hi fun e he => ?_
    cases b with
    | nothing | both => cases he
    | enc =>
      obtain rfl := List.mem_singleton.1 he
      exact hostWaits_awaitEnc_eq_false (henc rfl).1 (henc rfl).2
    | dec =>
      obtain rfl := List.mem_singleton.1 he
      exact hostWaits_awaitDec_eq_false (hdec rfl).1 (hdec rfl).2
    | bothThenReset =>
      obtain rfl := List.mem_singleton.1 he
      exact s.outstanding_eq_false_iff.2 (hboth rfl)

/-- Settles O60: the lines say which streams there are, and the host attaches them once nothing is outstanding. -/
theorem programEnvironmentAttachedFirst : Obligations.ProgramEnvironmentAttachedFirst := by
  unfold Obligations.ProgramEnvironmentAttachedFirst
  refine ⟨fun p => rfl, ?sink, ?source, fun s p es ha hi h => step_of_hostWaits ha hi (s.outstanding_iff.2 h),
    fun s p es turns hi ho he hd => runSteps_environmentEvents (s.outstanding_eq_false_iff.2 ⟨ho, he, hd⟩) hi⟩
  case sink =>
    intro p q n hfail hok
    have hq := filterMap_lineSink_eq_nil hfail hok
    exact ⟨programSink_append_cons p rfl hq, programSink_append_cons p rfl hq, programSink_eq_none hq⟩
  case source =>
    intro p q bytes h
    have hp := filterMap_lineBytes_eq_nil fun c => (h c).1
    have hq := filterMap_lineBytes_eq_nil fun c => (h c).2
    exact ⟨programSource_of_loopback (by simp), fun hlp hlq =>
      ⟨programSource_eq_none hlp hp, programSource_append_cons bytes hlp hlq hp hq⟩⟩

/-- Settles O1: the commands of 95_test_vectors 2.7 and the chunks of R130 and R160, evaluated. -/
theorem specWordsDecodeAsWritten : Obligations.SpecWordsDecodeAsWritten := by
  unfold Obligations.SpecWordsDecodeAsWritten
  decide

/-- Settles O29: the turn of an idle unit with a command, and of a running DEC with a byte. -/
theorem stepRunsTheDecodedInstruction : Obligations.StepRunsTheDecodedInstruction := by
  unfold Obligations.StepRunsTheDecodedInstruction
  refine ⟨fun s w ws ha hr ho => ?enc, fun s w ws ha hr ho => ?dec, fun s b ha hr hb => nextAgent_dec_byte ha hr hb⟩
  case enc =>
    rw [step, ha]
    exact encStep_of_idle_some (s := advance s) hr ho
  case dec =>
    rw [step, ha]
    exact decStep_of_idle_some (s := advance s) hr ho

/-- Settles O52, arm by arm. -/
theorem everyInstructionAnswersNext : Obligations.EveryInstructionAnswersNext := by
  unfold Obligations.EveryInstructionAnswersNext
  intro i s
  cases i with
  | encode v => exact ⟨_, execEncode_eq s v⟩
  | decode => exact ⟨_, execDecode_eq s⟩
  | chunkCont d => exact ⟨_, execChunkCont_eq s d⟩
  | chunkLast d => exact ⟨_, execChunkLast_eq s d⟩

end Sys2Proof.Proofs

/-! PROOFS. The commands: their acceptance, their frame, and the response that ends an operation
(40_codec_capability). -/

/-! ### The commands as steps of their units (R112 to R116, R131, R161) -/

namespace Sys2Proof

/-- The value field of a command word is the number of the word without its bit 64 (R95). -/
theorem valueField_eq_ofNat (w : CmdWord) : valueField w = BitVec.ofNat 64 w.toNat := by
  apply BitVec.eq_of_toNat_eq
  rw [valueField_toNat, BitVec.toNat_ofNat]

end Sys2Proof

namespace Sys2Proof.Machine

theorem exec_encode_of_idle {s : State} (hr : s.enc.st = .idle) (v : Int) :
    exec (.encode v) s = .next (s.acceptEnc v) := by
  rw [exec, execEncode_eq, hr, State.acceptEnc_eq]

theorem exec_encode_of_run {s : State} (hr : s.enc.st = .run) (v : Int) :
    exec (.encode v) s = .next (s.holdOffer (cmdWord false (u64 v))) := by
  rw [exec, execEncode_eq, hr, State.holdOffer_eq]

theorem exec_decode_of_idle {s : State} (hr : s.dec.st = .idle) : exec .decode s = .next s.acceptDec := by
  rw [exec, execDecode_eq, hr, State.acceptDec_eq]

theorem exec_decode_of_run {s : State} (hr : s.dec.st = .run) :
    exec .decode s = .next (s.holdOffer (cmdWord true 0)) := by
  rw [exec, execDecode_eq, hr, State.holdOffer_eq]

/-- A turn of a running ENC leaves the offers with the host (R116). -/
theorem encNext_offers_of_run {s : State} (hr : s.enc.st = .run) : (encNext s).offers = s.offers := by
  rw [encNext_eq, State.afterEnc, hr]
  rfl

/-- A turn of a running DEC leaves the offers with the host (R116). -/
theorem decNext_offers_of_run {s : State} (hr : s.dec.st = .run) : (decNext s).offers = s.offers := by
  rw [decNext_eq, State.afterDec, hr]
  rfl

/-! ### The response that ends an operation (R117, R119, R210) -/

/-- A chunk step of ENC ends the operation with a response, or goes on without one. -/
theorem encChunk_responds_or_runs (s : State) :
    ((encChunk s).enc = Enc.cleared ∧ ∃ r, (encChunk s).encRsps = s.encRsps ++ [r]) ∨
      ((encChunk s).enc.st = .run ∧ (encChunk s).encRsps = s.encRsps) := by
  rw [encChunk_eq]
  cases s.sinkAnswer with
  | ok =>
    by_cases hend : restOf s.enc.rem = 0 ∨ s.enc.cnt = 4#3
    · dsimp only
      rw [if_pos hend]
      exact .inl ⟨rfl, .ok, rfl⟩
    · dsimp only
      rw [if_neg hend]
      exact .inr ⟨rfl, rfl⟩
  | fail left => exact .inl ⟨rfl, .err .sinkWriteError, rfl⟩

/-- A byte ends the operation of DEC with a response, or DEC goes on without one. -/
theorem decByte_responds_or_runs (b : Byte) (s : State) :
    ((decByte b s).dec = Dec.cleared ∧ ∃ r, (decByte b s).decRsps = s.decRsps ++ [r]) ∨
      ((decByte b s).dec.st = .run ∧ (decByte b s).decRsps = s.decRsps) := by
  unfold decByte
  split
  · split
    · exact .inl ⟨rfl, .err .malformedEncoding, rfl⟩
    · exact .inr ⟨rfl, rfl⟩
  · exact .inl ⟨rfl, .ok _, rfl⟩

theorem encNext_of_run {s : State} (hr : s.enc.st = .run) : encNext s = encChunk s := by
  rw [encNext, hr]

theorem encNext_encRsps_of_idle {s : State} (hr : s.enc.st = .idle) : (encNext s).encRsps = s.encRsps := by
  simp only [encNext, hr]
  cases s.offers.find? fun w => !opBit w <;> rfl

theorem decNext_decRsps_of_idle {s : State} (hr : s.dec.st = .idle) : (decNext s).decRsps = s.decRsps := by
  simp only [decNext, hr]
  cases s.offers.find? opBit <;> rfl

/-- A turn of a running DEC ends the operation with a response, or goes on without one. -/
theorem decNext_responds_or_runs {s : State} (hr : s.dec.st = .run) :
    ((decNext s).dec = Dec.cleared ∧ ∃ r, (decNext s).decRsps = s.decRsps ++ [r]) ∨
      ((decNext s).dec.st = .run ∧ (decNext s).decRsps = s.decRsps) := by
  simp only [decNext, hr]
  cases s.sourceAnswer with
  | fail m => exact .inl ⟨rfl, .err .sourceReadError, rfl⟩
  | byte b => exact decByte_responds_or_runs b (s.sourceRead (.byte b))

/-- ENC's responses grow by one in the turn that takes it from RUN to IDLE, and in no other turn of it. -/
theorem encNext_responds_iff_ends (s : State) :
    ((s.enc.st = .run ∧ (encNext s).enc.st = .idle) →
      (encNext s).enc = Enc.cleared ∧ ∃ r, (encNext s).encRsps = s.encRsps ++ [r]) ∧
    (¬ (s.enc.st = .run ∧ (encNext s).enc.st = .idle) → (encNext s).encRsps = s.encRsps) := by
  cases hr : s.enc.st with
  | idle => exact ⟨fun ⟨hrun, _⟩ => (nomatch hrun), fun _ => encNext_encRsps_of_idle hr⟩
  | run =>
    rw [encNext_of_run hr]
    obtain ⟨hcleared, hrsp⟩ | ⟨hruns, hsame⟩ := encChunk_responds_or_runs s
    · exact ⟨fun _ => ⟨hcleared, hrsp⟩, fun h => absurd ⟨rfl, by rw [hcleared]; rfl⟩ h⟩
    · exact ⟨fun h => by simp [hruns] at h, fun _ => hsame⟩

/-- DEC's responses grow by one in the turn that takes it from RUN to IDLE, and in no other turn of it. -/
theorem decNext_responds_iff_ends (s : State) :
    ((s.dec.st = .run ∧ (decNext s).dec.st = .idle) →
      (decNext s).dec = Dec.cleared ∧ ∃ r, (decNext s).decRsps = s.decRsps ++ [r]) ∧
    (¬ (s.dec.st = .run ∧ (decNext s).dec.st = .idle) → (decNext s).decRsps = s.decRsps) := by
  cases hr : s.dec.st with
  | idle => exact ⟨fun ⟨hrun, _⟩ => (nomatch hrun), fun _ => decNext_decRsps_of_idle hr⟩
  | run =>
    obtain ⟨hcleared, hrsp⟩ | ⟨hruns, hsame⟩ := decNext_responds_or_runs hr
    · exact ⟨fun _ => ⟨hcleared, hrsp⟩, fun h => absurd ⟨rfl, by rw [hcleared]; rfl⟩ h⟩
    · exact ⟨fun h => by simp [hruns] at h, fun _ => hsame⟩

end Sys2Proof.Machine

/-! ### The statements -/

namespace Sys2Proof.Proofs

open Sys2Proof.Machine

/-- Settles O9: the first word of ENCODE is the one that an idle ENC takes. -/
theorem encodeOfferConsumedOnAcceptance : Obligations.EncodeOfferConsumedOnAcceptance := by
  unfold Obligations.EncodeOfferConsumedOnAcceptance
  intro s pre post w ha hr ho hpre hw
  have htake : takeOffer (fun w => !opBit w) s.offers = some (w, pre ++ post) := by
    rw [ho]
    exact takeOffer_append (fun x hx => by simp [(opBit_iff x).2 (hpre x hx)])
      (by simp [(opBit_eq_false_iff w).2 hw])
  rw [step, ha, ← valueField_eq_ofNat]
  exact encStep_accepts (s := advance s) hr htake

/-- Settles O11: the first word of DECODE is the one that an idle DEC takes. -/
theorem decodeOfferConsumedOnAcceptance : Obligations.DecodeOfferConsumedOnAcceptance := by
  unfold Obligations.DecodeOfferConsumedOnAcceptance
  intro s pre post w ha hr ho hpre hw
  have htake : takeOffer opBit s.offers = some (w, pre ++ post) := by
    rw [ho]
    exact takeOffer_append (fun x hx => (opBit_eq_false_iff x).2 (hpre x hx)) ((opBit_iff w).2 hw)
  rw [step, ha]
  exact decStep_accepts (s := advance s) hr htake

/-- Settles O53: a turn of a running unit ends the operation with a response or leaves it in RUN without one. -/
theorem oneResponseWhenAnOperationEnds : Obligations.OneResponseWhenAnOperationEnds := by
  unfold Obligations.OneResponseWhenAnOperationEnds
  constructor
  · intro s t ha h
    rw [step_enc ha] at h
    cases h
    exact encNext_responds_iff_ends (advance s)
  · intro s t ha h
    rw [step_dec ha] at h
    cases h
    exact decNext_responds_iff_ends (advance s)

/-- Settles O12: a running unit accepts no command, and its turn is a chunk step. -/
theorem runningUnitHoldsTheCommand : Obligations.RunningUnitHoldsTheCommand := by
  unfold Obligations.RunningUnitHoldsTheCommand
  refine ⟨fun v s hr => exec_encode_of_run hr v, fun s hr => exec_decode_of_run hr, ?encTurn, ?decTurn⟩
  case encTurn =>
    intro s t ha hr h
    rw [step_enc ha] at h
    cases h
    exact encNext_offers_of_run (s := advance s) hr
  case decTurn =>
    intro s t ha hr h
    rw [step_dec ha] at h
    cases h
    exact decNext_offers_of_run (s := advance s) hr

/-- Settles O13: a command is accepted, which writes its unit alone, or held, which writes the offers alone. -/
theorem commandFrames : Obligations.CommandFrames := by
  unfold Obligations.CommandFrames
  constructor
  · intro v s t h
    cases hr : s.enc.st with
    | idle =>
      rw [exec_encode_of_idle hr] at h
      cases h
      simp
    | run =>
      rw [exec_encode_of_run hr] at h
      cases h
      simp
  · intro s t h
    cases hr : s.dec.st with
    | idle =>
      rw [exec_decode_of_idle hr] at h
      cases h
      simp
    | run =>
      rw [exec_decode_of_run hr] at h
      cases h
      simp

end Sys2Proof.Proofs

/-! PROOFS. ENCODE: its chunk steps, the whole operation, the bytes it writes, and the way back through DECODE
(41_encode). -/

/-! ### The length and the bytes of an encoding, in arithmetic (R134, R137) -/

namespace Sys2Proof.Machine

theorem shiftRight_eq_zero_iff (u : Pattern) (n : Nat) : u >>> n = 0 ↔ u.toNat < 2 ^ n := by
  rw [← BitVec.toNat_inj, BitVec.toNat_ushiftRight, Nat.shiftRight_eq_div_pow]
  exact Nat.div_eq_zero_iff_lt (Nat.two_pow_pos n)

theorem restOf_eq_zero_iff (rem : Pattern) : restOf rem = 0 ↔ rem.toNat / 128 = 0 := by
  rw [← BitVec.toNat_inj, restOf_toNat]
  rfl

/-- The length by ranges of the pattern (R137). -/
theorem encLen_eq (u : Pattern) :
    encLen u = if u.toNat < 2 ^ 7 then 1 else if u.toNat < 2 ^ 14 then 2 else if u.toNat < 2 ^ 21 then 3
      else if u.toNat < 2 ^ 28 then 4 else 5 := by
  simp only [encLen, shiftRight_eq_zero_iff]

theorem encLen_pos (u : Pattern) : 0 < encLen u := by
  rw [encLen_eq]
  split_ifs <;> decide

theorem exists_encLen_eq_succ (u : Pattern) : ∃ k, encLen u = k + 1 := Nat.exists_eq_add_one.2 (encLen_pos u)

theorem encLen_le_five (u : Pattern) : encLen u ≤ 5 := by
  rw [encLen_eq]
  split_ifs <;> decide

/-- After the chunk at position `p` another one follows, up to position 4, while the pattern has a bit above it. -/
theorem succ_lt_encLen_iff (u : Pattern) (p : Nat) :
    p + 1 < encLen u ↔ p < 4 ∧ 2 ^ (7 * (p + 1)) ≤ u.toNat := by
  by_cases hp : p < 4
  · rw [encLen_eq]
    interval_cases p <;> split_ifs <;> omega
  · have := encLen_le_five u
    omega

/-- The test by which ENC ends an operation, at the chunk that the closed form has last (R132, R134). -/
theorem ends_iff {u : Pattern} {p : Nat} (hp : p < encLen u) :
    restOf (u >>> (7 * p)) = 0 ∨ BitVec.ofNat 3 p = 4#3 ↔ p + 1 = encLen u := by
  have hmore := succ_lt_encLen_iff u p
  have hle := encLen_le_five u
  have hpos : BitVec.ofNat 3 p = 4#3 ↔ p = 4 := by
    rw [← BitVec.toNat_inj, BitVec.toNat_ofNat, BitVec.toNat_ofNat]
    omega
  rw [← shiftRight_eq_restOf, shiftRight_eq_zero_iff, hpos]
  omega

/-- The chunk of a remaining value, as a number (R132). -/
theorem chunkOf_eq_ofNat (rem : Pattern) :
    chunkOf rem = BitVec.ofNat 8 ((if rem.toNat / 128 = 0 then 0 else 128) + rem.toNat % 128) := by
  have hlow : (lowData rem).toNat = rem.toNat % 128 := by simp [lowData]
  apply BitVec.eq_of_toNat_eq
  simp only [chunkOf, chunkByte_toNat, moreFlag_iff, Ne, restOf_eq_zero_iff, hlow, BitVec.toNat_ofNat]
  split_ifs <;> omega

@[simp] theorem length_encBytes (v : Int) : (encBytes v).length = encLen (u64 v) := by
  simp [encBytes]

/-- The bytes written once one more is (R134). -/
theorem take_encBytes_succ {v : Int} {p : Nat} (hp : p < encLen (u64 v)) :
    (encBytes v).take p ++ [encByte (u64 v) p] = (encBytes v).take (p + 1) := by
  rw [List.take_succ_eq_append_getElem (by simpa using hp)]
  simp [encBytes]

theorem take_encBytes_of_eq {v : Int} {n : Nat} (h : n = encLen (u64 v)) : (encBytes v).take n = encBytes v :=
  List.take_of_length_le (by simp [h])

end Sys2Proof.Machine

/-! ### ENC-CHUNK and its three ends (R132, R135) -/

namespace Sys2Proof.Machine

section ChunkStep

variable {s : State} (ha : nextAgent s = .enc) (hr : s.enc.st = .run)

include ha hr

/-- An accepted write that ends the operation: the last chunk, or the one at position 4. -/
theorem step_encChunk_ends (hok : (advance s).sinkAnswer = .ok) (hend : restOf s.enc.rem = 0 ∨ s.enc.cnt = 4#3) :
    step s = .next { advance s with
      enc := Enc.cleared
      sink := { s.sink with content := s.sink.content ++ [chunkOf s.enc.rem], answers := s.sink.answers.tail }
      encRsps := s.encRsps ++ [.ok] } := by
  simp only [step_encChunk ha hr, hok, if_pos hend]

/-- An accepted write after which ENC goes on. -/
theorem step_encChunk_goesOn (hok : (advance s).sinkAnswer = .ok)
    (hmore : ¬ (restOf s.enc.rem = 0 ∨ s.enc.cnt = 4#3)) :
    step s = .next { advance s with
      enc := { rem := restOf s.enc.rem, cnt := s.enc.cnt + 1, st := .run }
      sink := { s.sink with
        content := s.sink.content ++ [chunkOf s.enc.rem], answers := s.sink.answers.tail } } := by
  simp only [step_encChunk ha hr, hok, if_neg hmore]

/-- A failed write, at any chunk. -/
theorem step_encChunk_fails {left : List Byte} (hfail : (advance s).sinkAnswer = .fail left) :
    step s = .next { advance s with
      enc := Enc.cleared
      sink := { s.sink with content := s.sink.content ++ left, answers := s.sink.answers.tail }
      encRsps := s.encRsps ++ [.err .sinkWriteError] } := by
  simp only [step_encChunk ha hr, hfail]

end ChunkStep

end Sys2Proof.Machine

/-! ### An ENCODE in progress (R134) -/

namespace Sys2Proof.Safety

open Sys2Proof.Machine

theorem EncOk.cnt_le {e : Enc} (h : EncOk e) (hr : e.st = .run) : e.cnt.toNat ≤ 4 := by
  obtain ⟨rem, cnt, st⟩ := e
  subst hr
  obtain ⟨hle, -⟩ := (encOk_run_iff rem cnt).1 h
  exact hle

section Progress

variable {v : Int} {c : List Byte} {p : Nat} {s : State} (h : EncProgress v c p s)

include h

theorem EncProgress.lt_encLen : p < encLen (u64 v) := h.1

theorem EncProgress.enc_eq : s.enc = { rem := u64 v >>> (7 * p), cnt := BitVec.ofNat 3 p, st := .run } := h.2.1

theorem EncProgress.content_eq : s.sink.content = c ++ (encBytes v).take p := h.2.2

theorem EncProgress.runs : s.enc.st = .run := by rw [h.enc_eq]

/-- The registers and the sink hold the progress; the rest of the state is free. -/
theorem EncProgress.of_frame {t : State} (he : t.enc = s.enc) (hs : t.sink = s.sink) : EncProgress v c p t :=
  ⟨h.lt_encLen, he ▸ h.enc_eq, hs ▸ h.content_eq⟩

/-- ENC ends at the chunk that the closed form has last. -/
theorem EncProgress.ends_iff : restOf s.enc.rem = 0 ∨ s.enc.cnt = 4#3 ↔ p + 1 = encLen (u64 v) := by
  rw [h.enc_eq]
  exact Machine.ends_iff h.lt_encLen

/-- The chunk of the turn is the next byte of the closed form. -/
theorem EncProgress.content_append_chunk :
    s.sink.content ++ [chunkOf s.enc.rem] = c ++ (encBytes v).take (p + 1) := by
  rw [h.content_eq, h.enc_eq, ← encByte_eq_chunkOf, List.append_assoc, take_encBytes_succ h.lt_encLen]

/-- The registers once the chunk is written: what is left of the value, and the next position (R136). -/
theorem EncProgress.next_enc :
    ({ rem := restOf s.enc.rem, cnt := s.enc.cnt + 1, st := .run } : Enc) =
      { rem := u64 v >>> (7 * (p + 1)), cnt := BitVec.ofNat 3 (p + 1), st := .run } := by
  rw [h.enc_eq, shiftRight_eq_restOf, BitVec.ofNat_add]
  rfl

variable (ha : nextAgent s = .enc)

include ha

/-- A turn that writes a byte that is not the last. -/
theorem EncProgress.step_goesOn (hok : (advance s).sinkAnswer = .ok) (hmore : p + 1 < encLen (u64 v)) :
    step s = .next { advance s with
      enc := { rem := u64 v >>> (7 * (p + 1)), cnt := BitVec.ofNat 3 (p + 1), st := .run }
      sink := { s.sink with content := c ++ (encBytes v).take (p + 1), answers := s.sink.answers.tail } } := by
  rw [step_encChunk_goesOn ha h.runs hok (h.ends_iff.not.2 hmore.ne), h.content_append_chunk, h.next_enc]

/-- The turn that writes the last byte. -/
theorem EncProgress.step_ends (hok : (advance s).sinkAnswer = .ok) (hlast : p + 1 = encLen (u64 v)) :
    step s = .next { advance s with
      enc := Enc.cleared
      sink := { s.sink with content := c ++ encBytes v, answers := s.sink.answers.tail }
      encRsps := s.encRsps ++ [.ok] } := by
  rw [step_encChunk_ends ha h.runs hok (h.ends_iff.2 hlast), h.content_append_chunk, take_encBytes_of_eq hlast]

/-- A turn whose write fails. -/
theorem EncProgress.step_fails {left : List Byte} (hfail : (advance s).sinkAnswer = .fail left) :
    step s = .next { advance s with
      enc := Enc.cleared
      sink := { s.sink with content := c ++ (encBytes v).take p ++ left, answers := s.sink.answers.tail }
      encRsps := s.encRsps ++ [.err .sinkWriteError] } := by
  rw [step_encChunk_fails ha h.runs hfail, h.content_eq]

end Progress

/-- RESET abandons what is in progress: both units are cleared, and nothing else changes but the host's list. -/
theorem step_of_resetNow {s t : State} (h : resetNow s) (hstep : step s = .next t) :
    ∃ es, t = ({ advance s with inputs := es } : State).resetCore := by
  obtain ⟨ha, hhead⟩ := h
  obtain ⟨es, hi⟩ := List.head?_eq_some_iff.1 hhead
  rw [step_of_hostActs ha hi rfl] at hstep
  cases hstep
  exact ⟨es, rfl⟩

/-- A turn that is not ENC's, RESET apart, leaves a running ENC and its sink as they are; of ENC's responses the host
may have taken some (R66, R68). -/
theorem step_leaves_running_enc {s t : State} (hr : s.enc.st = .run) (ha : nextAgent s ≠ .enc) (hne : ¬ resetNow s)
    (h : step s = .next t) : t.enc = s.enc ∧ t.sink = s.sink ∧ ∃ l, s.encRsps = l ++ t.encRsps := by
  cases hagent : nextAgent s with
  | enc => exact absurd hagent ha
  | dec =>
    rw [step_dec hagent, decNext_eq] at h
    cases h
    exact ⟨rfl, rfl, [], rfl⟩
  | host =>
    rw [step, hagent] at h
    obtain rfl | ⟨e, es, hi, he⟩ := hostStep_next h
    · exact ⟨rfl, rfl, [], rfl⟩
    · have hreset : e ≠ .reset := by
        rintro rfl
        exact hne ⟨hagent, by rw [← advance_inputs, hi, List.head?_cons]⟩
      obtain ⟨henc, -, -, hrsps, -, hsink, -⟩ := hostEvent_frame hreset he
      exact ⟨henc, hsink hr, hrsps⟩

end Sys2Proof.Safety

/-! ### The whole ENCODE (R130, R134, R135) -/

namespace Sys2Proof.Safety

open Sys2Proof.Machine

/-- The state in which ENC has accepted `v` in `s` and `k` writes have been accepted since. -/
def afterWrites (v : Int) (s : State) (k : Nat) : State :=
  { s with
    enc := { rem := u64 v >>> (7 * k), cnt := BitVec.ofNat 3 k, st := .run }
    sink := { s.sink with content := s.sink.content ++ (encBytes v).take k, answers := s.sink.answers.drop k }
    sched := s.sched.drop k
    draws := s.draws + k }

/-- The first `k` turns after the acceptance of `v` are ENC's, and the sink accepts its writes. -/
def WritesAccepted (v : Int) (s : State) (k : Nat) : Prop :=
  ∀ j, j < k → nextAgent (afterWrites v s j) = .enc ∧ (advance (afterWrites v s j)).sinkAnswer = .ok

theorem afterWrites_zero (v : Int) (s : State) : afterWrites v s 0 = s.acceptEnc v := by simp [afterWrites]

theorem encProgress_afterWrites {v : Int} {k : Nat} (hk : k < encLen (u64 v)) (s : State) :
    EncProgress v s.sink.content k (afterWrites v s k) := ⟨hk, rfl, rfl⟩

theorem WritesAccepted.mono {v : Int} {s : State} {j k : Nat} (h : WritesAccepted v s k) (hjk : j ≤ k) :
    WritesAccepted v s j := fun i hi => h i (hi.trans_le hjk)

/-- Accepted writes that leave something to write, from the acceptance on. -/
theorem runSteps_acceptEnc {v : Int} {s : State} {k : Nat} (hk : k < encLen (u64 v)) (h : WritesAccepted v s k) :
    runSteps k (s.acceptEnc v) = .next (afterWrites v s k) := by
  induction k with
  | zero => rw [runSteps_zero, afterWrites_zero]
  | succ k ih =>
    have hk' : k < encLen (u64 v) := Nat.lt_of_succ_lt hk
    obtain ⟨ha, hok⟩ := h k (Nat.lt_succ_self k)
    rw [runSteps_add k 1 (ih hk' (h.mono (Nat.le_succ k))),
      runSteps_succ 0 ((encProgress_afterWrites hk' s).step_goesOn ha hok hk), runSteps_zero]
    simp [afterWrites, advance, Nat.add_assoc]

/-- The whole operation where every write is accepted. -/
theorem runSteps_acceptEnc_encLen {v : Int} {s : State} (h : WritesAccepted v s (encLen (u64 v))) :
    runSteps (encLen (u64 v)) (s.acceptEnc v) = .next { s with
      enc := Enc.cleared
      sink := { s.sink with
        content := s.sink.content ++ encBytes v, answers := s.sink.answers.drop (encLen (u64 v)) }
      encRsps := s.encRsps ++ [.ok]
      sched := s.sched.drop (encLen (u64 v))
      draws := s.draws + encLen (u64 v) } := by
  obtain ⟨k, hk⟩ := exists_encLen_eq_succ (u64 v)
  have hlt : k < encLen (u64 v) := hk ▸ Nat.lt_succ_self k
  obtain ⟨ha, hok⟩ := h k hlt
  rw [hk, runSteps_add k 1 (runSteps_acceptEnc hlt (h.mono hlt.le)),
    runSteps_succ 0 ((encProgress_afterWrites hlt s).step_ends ha hok hk.symm), runSteps_zero]
  simp [afterWrites, advance, Nat.add_assoc]

/-- The whole operation where the write after `k` accepted ones fails. -/
theorem runSteps_acceptEnc_fails {v : Int} {s : State} {k : Nat} {left : List Byte} (hk : k < encLen (u64 v))
    (h : WritesAccepted v s k) (ha : nextAgent (afterWrites v s k) = .enc)
    (hfail : (advance (afterWrites v s k)).sinkAnswer = .fail left) :
    runSteps (k + 1) (s.acceptEnc v) = .next { s with
      enc := Enc.cleared
      sink := { s.sink with
        content := s.sink.content ++ (encBytes v).take k ++ left, answers := s.sink.answers.drop (k + 1) }
      encRsps := s.encRsps ++ [.err .sinkWriteError]
      sched := s.sched.drop (k + 1)
      draws := s.draws + (k + 1) } := by
  rw [runSteps_add k 1 (runSteps_acceptEnc hk h),
    runSteps_succ 0 ((encProgress_afterWrites hk s).step_fails ha hfail), runSteps_zero]
  simp [afterWrites, advance, Nat.add_assoc]

/-! #### Turns and answers given by lists -/

theorem drop_replicate_append_of_lt {α : Type} {j n : Nat} (hj : j < n) (x : α) (l : List α) :
    (List.replicate n x ++ l).drop j = x :: (List.replicate (n - j - 1) x ++ l) := by
  rw [List.drop_append_of_le_length (by simpa using hj.le), List.drop_replicate,
    ← List.cons_append, ← List.replicate_succ]
  congr 2
  omega

theorem nextAgent_afterWrites {v : Int} {s : State} {n j : Nat} {turns : List Agent} (hj : j < n)
    (hs : s.sched = List.replicate n .enc ++ turns) : nextAgent (afterWrites v s j) = .enc :=
  nextAgent_cons _ ((congrArg (List.drop j) hs).trans (drop_replicate_append_of_lt hj _ _))

/-- Writes that the sink's script accepts. -/
theorem writesAccepted_of_script {v : Int} {s : State} {m n k : Nat} {turns : List Agent} {later : List SinkAnswer}
    (hm : k ≤ m) (hn : k ≤ n) (hs : s.sched = List.replicate m .enc ++ turns)
    (ha : s.sink.answers = List.replicate n .ok ++ later) : WritesAccepted v s k := fun j hj =>
  ⟨nextAgent_afterWrites (hj.trans_le hm) hs,
    State.sinkAnswer_cons _ ((congrArg (List.drop j) ha).trans (drop_replicate_append_of_lt (hj.trans_le hn) _ _))⟩

/-- Writes to a sink without a script that accepts every write (D19). -/
theorem writesAccepted_of_accepts {v : Int} {s : State} {m k : Nat} {turns : List Agent} (hm : k ≤ m)
    (hs : s.sched = List.replicate m .enc ++ turns) (ha : s.sink.answers = []) (hrest : s.sink.rest = .accepts) :
    WritesAccepted v s k := fun j hj =>
  ⟨nextAgent_afterWrites (hj.trans_le hm) hs, by simp [State.sinkAnswer, afterWrites, ha, hrest]⟩

end Sys2Proof.Safety

/-! ### The bytes of an encoding (R137 to R139, R141) -/

namespace Sys2Proof.Machine

/-- The length by the significant bits of the pattern, up to the 5 chunks there are (R137). -/
theorem encLen_eq_size (u : Pattern) : encLen u = max 1 (min 5 ((Nat.size u.toNat + 6) / 7)) := by
  have hsize (n : Nat) : Nat.size u.toNat ≤ n ↔ u.toNat < 2 ^ n := Nat.size_le
  rw [encLen_eq]
  simp only [← hsize]
  split_ifs <;> omega

/-- Up to `VALID` the length covers every bit of the pattern, and above it it does not (R137). -/
theorem lt_two_pow_encLen_iff (u : Pattern) : u.toNat < 2 ^ (7 * encLen u) ↔ u.toNat < 2 ^ 35 := by
  rw [encLen_eq]
  split_ifs <;> omega

theorem two_pow_le_of_lt_encLen {u : Pattern} {p : Nat} (h : p + 1 < encLen u) : 2 ^ (7 * (p + 1)) ≤ u.toNat :=
  ((succ_lt_encLen_iff u p).1 h).2

/-- The bytes before the last, and the last. -/
theorem encBytes_eq_append {v : Int} {k : Nat} (hk : encLen (u64 v) = k + 1) :
    encBytes v = (List.range k).map (encByte (u64 v)) ++ [encByte (u64 v) k] := by
  rw [encBytes, hk, List.range_succ, List.map_append, List.map_singleton]

theorem contBit_encByte_iff (u : Pattern) (p : Nat) :
    contBit (encByte u p) = true ↔ 2 ^ (7 * (p + 1)) ≤ u.toNat := by
  rw [contBit_encByte]
  exact (shiftRight_eq_zero_iff u _).not.trans Nat.not_lt

/-- Every byte but the last continues. -/
theorem contBit_of_mem_init {u : Pattern} {k : Nat} (hk : encLen u = k + 1) {b : Byte}
    (hb : b ∈ (List.range k).map (encByte u)) : contBit b = true := by
  obtain ⟨p, hp, rfl⟩ := List.mem_map.1 hb
  rw [List.mem_range] at hp
  exact (contBit_encByte_iff u p).2 (two_pow_le_of_lt_encLen (by omega))

/-- The last byte continues outside `VALID` alone. -/
theorem contBit_last_iff {u : Pattern} {k : Nat} (hk : encLen u = k + 1) :
    contBit (encByte u k) = true ↔ 2 ^ 35 ≤ u.toNat := by
  rw [contBit_encByte_iff, ← hk, ← Nat.not_lt, ← Nat.not_lt, lt_two_pow_encLen_iff]

theorem valid_inValueRange {v : Int} (h : valid v) : inValueRange v = true := by
  rw [inValueRange_iff]
  omega

theorem u64_toNat_of_valid {v : Int} (h : valid v) : ((u64 v).toNat : Int) = v :=
  u64_toNat_of_nonneg (valid_inValueRange h) h.1

theorem u64_lt_of_valid {v : Int} (h : valid v) : (u64 v).toNat < 2 ^ 35 := by
  have := u64_toNat_of_valid h
  omega

theorem u64_ge_of_not_valid {v : Int} (hv : inValueRange v = true) (h : ¬ valid v) : 2 ^ 35 ≤ (u64 v).toNat := by
  obtain ⟨hiff, -⟩ := Proofs.validIsPatternBelow35Bits v hv
  exact Nat.not_lt.1 (mt hiff.2 h)

theorem encLen_of_ge {u : Pattern} (h : 2 ^ 35 ≤ u.toNat) : encLen u = 5 := by
  rw [encLen_eq]
  split_ifs <;> omega

/-- On `VALID` the last byte is the one that does not continue (R138). -/
theorem wellFormedEncoding_encBytes {v : Int} (h : valid v) : wellFormedEncoding (encBytes v) = true := by
  obtain ⟨k, hk⟩ := exists_encLen_eq_succ (u64 v)
  have hle := encLen_le_five (u64 v)
  have hlast : ¬ contBit (encByte (u64 v) k) = true :=
    mt (contBit_last_iff hk).1 (Nat.not_le.2 (u64_lt_of_valid h))
  refine (wellFormedEncoding_iff _).2 ⟨_, _, encBytes_eq_append hk, ?_, fun b => contBit_of_mem_init hk,
    Bool.eq_false_iff.2 hlast⟩
  rw [List.length_map, List.length_range]
  omega

/-- The data of the byte at position `p` is the pattern's group of 7 bits there (R61). -/
theorem dataField_encByte_toNat (u : Pattern) (p : Nat) :
    (dataField (encByte u p)).toNat = u.toNat / 2 ^ (7 * p) % 2 ^ 7 := by
  rw [encByte_eq_chunkOf, chunkOf, dataField_chunkByte]
  simp [lowData, Nat.shiftRight_eq_div_pow]

/-- The first `n` bytes denote the low `7n` bits of the pattern. -/
theorem denoted_map_encByte (u : Pattern) (n : Nat) :
    denoted ((List.range n).map (encByte u)) = u.toNat % 2 ^ (7 * n) := by
  induction n with
  | zero => simp [Nat.mod_one]
  | succ n ih =>
    rw [List.range_succ, List.map_append, List.map_singleton, denoted_append_singleton, ih, dataField_encByte_toNat,
      List.length_map, List.length_range, Nat.add_comm, ← Nat.mod_mul, ← Nat.pow_add]
    rfl

/-- On `VALID` the bytes denote the value (R139). -/
theorem denoted_encBytes {v : Int} (h : valid v) : (denoted (encBytes v) : Int) = v := by
  have hlt := (lt_two_pow_encLen_iff (u64 v)).2 (u64_lt_of_valid h)
  rw [encBytes, denoted_map_encByte, Nat.mod_eq_of_lt hlt, u64_toNat_of_valid h]

/-- A shorter list of chunks has no room for the pattern. -/
theorem encLen_le_of_lt {u : Pattern} {n : Nat} (hn : 1 ≤ n) (h : u.toNat < 2 ^ (7 * n)) : encLen u ≤ n := by
  obtain ⟨k, rfl⟩ := Nat.exists_eq_add_one.2 hn
  exact Nat.not_lt.1 fun hlt => Nat.not_le.2 h (two_pow_le_of_lt_encLen hlt)

theorem length_pos_of_wellFormed {bs : List Byte} (h : wellFormedEncoding bs = true) : 1 ≤ bs.length := by
  obtain ⟨cs, b, rfl, -⟩ := (wellFormedEncoding_iff bs).1 h
  simp

/-- On `VALID` no well-formed encoding of the value is shorter (R92, R139). -/
theorem minimalEncoding_encBytes {v : Int} (h : valid v) : minimalEncoding (encBytes v) := by
  refine ⟨wellFormedEncoding_encBytes h, fun cs hcs hden => ?_⟩
  have hvalue : (u64 v).toNat = denoted cs := by
    have := denoted_encBytes h
    have := u64_toNat_of_valid h
    omega
  rw [length_encBytes]
  exact encLen_le_of_lt (length_pos_of_wellFormed hcs) (hvalue ▸ denoted_lt cs)

theorem chunkOf_eq_zero {rem : Pattern} (h : chunkOf rem = 0) : rem.toNat = 0 := by
  have hnat : (chunkOf rem).toNat = 0 := by rw [h]; rfl
  rw [chunkOf_eq_ofNat, BitVec.toNat_ofNat] at hnat
  split_ifs at hnat <;> omega

/-- A last byte `0x00` has no bit of the pattern at or above its position, so it is the only byte. -/
theorem eq_zero_of_last_eq_zero {u : Pattern} {k : Nat} (hk : encLen u = k + 1) (h : encByte u k = 0) :
    u.toNat = 0 := by
  have hrem : u.toNat < 2 ^ (7 * k) := by
    rw [← shiftRight_eq_zero_iff, ← BitVec.toNat_inj]
    exact chunkOf_eq_zero (encByte_eq_chunkOf u k ▸ h)
  cases k with
  | zero => exact Nat.lt_one_iff.1 hrem
  | succ k => exact absurd (two_pow_le_of_lt_encLen (hk ▸ Nat.lt_succ_self (k + 1))) (Nat.not_le.2 hrem)

theorem getLast?_encBytes {v : Int} {k : Nat} (hk : encLen (u64 v) = k + 1) :
    (encBytes v).getLast? = some (encByte (u64 v) k) := by
  rw [encBytes_eq_append hk, List.getLast?_concat]

/-- Outside `VALID` each of the five bytes continues and carries its group of 7 bits (R141). -/
theorem encBytes_of_not_valid {v : Int} (hv : inValueRange v = true) (h : ¬ valid v) :
    encBytes v = (List.range 5).map fun p => BitVec.ofNat 8 (128 + (u64 v).toNat / 2 ^ (7 * p) % 128) := by
  have hge := u64_ge_of_not_valid hv h
  rw [encBytes, encLen_of_ge hge]
  refine List.map_congr_left fun p hp => ?_
  have hmore : 2 ^ (7 * (p + 1)) ≤ (u64 v).toNat :=
    (Nat.pow_le_pow_right (by decide) (by have := List.mem_range.1 hp; omega)).trans hge
  apply BitVec.eq_of_toNat_eq
  have hcont := (contBit_iff _).1 ((contBit_encByte_iff (u64 v) p).2 hmore)
  have hdata := dataField_encByte_toNat (u64 v) p
  have hbyte := (encByte (u64 v) p).isLt
  rw [dataField_toNat] at hdata
  rw [BitVec.toNat_ofNat]
  omega

/-- A group of 7 bits below bit 35 is the same in the low 35 bits. -/
theorem group_mod (u : Nat) {p : Nat} (hp : p < 5) :
    u / 2 ^ (7 * p) % 128 = u % 2 ^ 35 / 2 ^ (7 * p) % 128 := by
  interval_cases p <;> omega

/-- Outside `VALID` values with the same low 35 bits get the same bytes (R141). -/
theorem encBytes_congr_of_not_valid {v w : Int} (hv : inValueRange v = true) (hnv : ¬ valid v)
    (hw : inValueRange w = true) (hnw : ¬ valid w) (h : (u64 v).toNat % 2 ^ 35 = (u64 w).toNat % 2 ^ 35) :
    encBytes v = encBytes w := by
  rw [encBytes_of_not_valid hv hnv, encBytes_of_not_valid hw hnw]
  refine List.map_congr_left fun p hp => ?_
  rw [group_mod _ (List.mem_range.1 hp), h, ← group_mod _ (List.mem_range.1 hp)]

end Sys2Proof.Machine

/-! ### A DECODE of a well-formed encoding (R140, R174) -/

namespace Sys2Proof.Machine

theorem firstBytes_eq {bs : List Byte} {a : Nat → SourceAnswer}
    (ha : ∀ p, p < bs.length → a p = .byte (bs.getD p 0)) : firstBytes a bs.length = bs := by
  refine List.ext_getElem (by simp [firstBytes]) fun p _ hp => ?_
  simp [firstBytes, ha p hp, byteOf, hp]

theorem s64_denoted {bs : List Byte} (h : wellFormedEncoding bs = true) :
    s64 (BitVec.ofNat 64 (denoted bs)) = denoted bs :=
  have ⟨_, hvalue, _⟩ := Proofs.denotedValueOfWellFormed bs h
  hvalue

/-- A DECODE whose source supplies a well-formed encoding, whatever follows it (R174). -/
theorem decOutcome_of_wellFormed {bs : List Byte} {a : Nat → SourceAnswer} (h : wellFormedEncoding bs = true)
    (ha : ∀ p, p < bs.length → a p = .byte (bs.getD p 0)) : decOutcome a = (.ok (denoted bs), bs.length) := by
  obtain ⟨cs, b, rfl, hlen, hcont, hlast⟩ := (wellFormedEncoding_iff bs).1 h
  have hb : a cs.length = .byte b := by simpa using ha cs.length (by simp)
  have hstop : stopIndex a = some cs.length := by
    refine (stopIndex_eq_some_iff a _).2 ⟨by simp [hb, stopsAt, hlast], by omega, fun j hj => ?_⟩
    have haj : a j = .byte cs[j] := by
      rw [ha j (by simp; omega), List.getD_append _ _ _ _ hj, List.getD_eq_getElem]
    simp [haj, stopsAt, hcont]
  have hbytes := firstBytes_eq ha
  rw [List.length_append, List.length_singleton] at hbytes ⊢
  rw [decOutcome_of_byte hstop hb, hbytes, s64_denoted h]

end Sys2Proof.Machine

/-! ### The machine through a loopback (R98, R140) -/

namespace Sys2Proof.Safety

open Sys2Proof.Machine

/-- The state in which DEC has accepted a DECODE in `s` and the bytes `bs` have been read since, all of them with more
to come (R171). -/
def afterReads (s : State) (bs : List Byte) : State :=
  { s with
    dec := { acc := BitVec.ofNat 64 (denoted bs), pos := BitVec.ofNat 3 bs.length, st := .run }
    source := { s.source with
      position := s.source.position + bs.length, answers := s.source.answers.drop bs.length }
    sched := s.sched.drop bs.length
    draws := s.draws + bs.length }

/-- The turns after the acceptance of a DECODE are DEC's, and the source supplies the bytes `bs`. -/
def BytesSupplied (s : State) (bs : List Byte) : Prop :=
  ∀ j (hj : j < bs.length), nextAgent (afterReads s (bs.take j)) = .dec ∧
    (advance (afterReads s (bs.take j))).sourceAnswer = .byte bs[j]

theorem afterReads_nil (s : State) : afterReads s [] = s.acceptDec := by simp [afterReads]

/-- Five chunks fit the accumulator (R168). -/
theorem ofNat_denoted_toNat {bs : List Byte} (h : bs.length ≤ 5) :
    (BitVec.ofNat 64 (denoted bs)).toNat = denoted bs := by
  have hlt : denoted bs < 2 ^ 35 := (denoted_lt bs).trans_le (Nat.pow_le_pow_right (by decide) (by omega))
  rw [BitVec.toNat_ofNat]
  omega

/-- The byte at position `bs.length` folded into what the bytes before it denote (R166). -/
theorem fold_denoted {bs : List Byte} (h : bs.length ≤ 4) (b : Byte) :
    fold (BitVec.ofNat 64 (denoted bs)) (BitVec.ofNat 3 bs.length) (dataField b) =
      BitVec.ofNat 64 (denoted (bs ++ [b])) := by
  have hpos : (BitVec.ofNat 3 bs.length).toNat = bs.length := by
    rw [BitVec.toNat_ofNat]
    omega
  have hacc : (BitVec.ofNat 64 (denoted bs)).toNat = denoted bs := ofNat_denoted_toNat (Nat.le_succ_of_le h)
  apply BitVec.eq_of_toNat_eq
  rw [fold_toNat _ (hpos.le.trans h) (by rw [hacc, hpos]; exact denoted_lt bs), hacc, hpos,
    ofNat_denoted_toNat (by simpa [Nat.lt_succ_iff] using h), denoted_append_singleton, Nat.add_comm, Nat.mul_comm]

/-- The turn of a running DEC that reads a byte. -/
theorem step_decByte {s : State} {b : Byte} (ha : nextAgent s = .dec) (hr : s.dec.st = .run)
    (hb : (advance s).sourceAnswer = .byte b) : step s = .next (decByte b ((advance s).sourceRead (.byte b))) :=
  (nextAgent_dec_byte ha hr hb).trans (exec_decodeChunk (s := (advance s).sourceRead (.byte b)) hr b)

theorem decByte_of_cont {s : State} {b : Byte} (hcont : contBit b = true) (hpos : s.dec.pos ≠ 4#3) :
    decByte b s =
      s.setDec { acc := fold s.dec.acc s.dec.pos (dataField b), pos := s.dec.pos + 1, st := .run } := by
  rw [decByte, if_pos hcont, if_neg hpos]

theorem decByte_of_last {s : State} {b : Byte} (hlast : contBit b = false) :
    decByte b s = s.respondDec (s64 (fold s.dec.acc s.dec.pos (dataField b))) :=
  if_neg (by simp [hlast])

/-- A byte that continues, before position 4. -/
theorem step_afterReads_goesOn {s : State} {bs : List Byte} {b : Byte} (hlen : bs.length < 4)
    (hcont : contBit b = true) (ha : nextAgent (afterReads s bs) = .dec)
    (hb : (advance (afterReads s bs)).sourceAnswer = .byte b) :
    step (afterReads s bs) = .next (afterReads s (bs ++ [b])) := by
  have hpos : BitVec.ofNat 3 bs.length ≠ 4#3 := by
    rw [Ne, ← BitVec.toNat_inj, BitVec.toNat_ofNat, BitVec.toNat_ofNat]
    omega
  rw [step_decByte ha rfl hb, decByte_of_cont (s := (advance (afterReads s bs)).sourceRead (.byte b)) hcont hpos]
  simp [afterReads, advance, State.setDec, fold_denoted hlen.le, BitVec.ofNat_add, Nat.add_assoc]

/-- A byte that does not continue ends the DECODE with the value of the bytes read. -/
theorem step_afterReads_ends {s : State} {bs : List Byte} {b : Byte} (hlen : bs.length ≤ 4)
    (hlast : contBit b = false) (ha : nextAgent (afterReads s bs) = .dec)
    (hb : (advance (afterReads s bs)).sourceAnswer = .byte b) :
    step (afterReads s bs) = .next { s with
      dec := Dec.cleared
      source := { s.source with
        position := s.source.position + (bs.length + 1), answers := s.source.answers.drop (bs.length + 1) }
      decRsps := s.decRsps ++ [.ok (s64 (BitVec.ofNat 64 (denoted (bs ++ [b]))))]
      sched := s.sched.drop (bs.length + 1)
      draws := s.draws + (bs.length + 1) } := by
  rw [step_decByte ha rfl hb, decByte_of_last hlast]
  simp [afterReads, advance, fold_denoted hlen, Nat.add_assoc]

theorem BytesSupplied.of_append {s : State} {bs cs : List Byte} (h : BytesSupplied s (bs ++ cs)) :
    BytesSupplied s bs := fun j hj => by
  have := h j (by simp; omega)
  rwa [List.take_append_of_le_length hj.le, List.getElem_append_left hj] at this

theorem BytesSupplied.last {s : State} {bs : List Byte} {b : Byte} (h : BytesSupplied s (bs ++ [b])) :
    nextAgent (afterReads s bs) = .dec ∧ (advance (afterReads s bs)).sourceAnswer = .byte b := by
  simpa using h bs.length (by simp)

/-- Up to four bytes that continue, from the acceptance on. -/
theorem runSteps_acceptDec {s : State} {bs : List Byte} (hlen : bs.length ≤ 4) (hcont : ∀ b ∈ bs, contBit b = true)
    (h : BytesSupplied s bs) : runSteps bs.length s.acceptDec = .next (afterReads s bs) := by
  induction bs using List.reverseRecOn with
  | nil => rw [List.length_nil, runSteps_zero, afterReads_nil]
  | append_singleton bs b ih =>
    rw [List.length_append, List.length_singleton] at hlen ⊢
    obtain ⟨hinit, hb⟩ := List.forall_mem_append.1 hcont
    obtain ⟨ha, hbyte⟩ := h.last
    rw [runSteps_add bs.length 1 (ih (by omega) hinit h.of_append),
      runSteps_succ 0 (step_afterReads_goesOn hlen (hb b (by simp)) ha hbyte), runSteps_zero]

/-- The whole DECODE of a well-formed encoding. -/
theorem runSteps_acceptDec_wellFormed {s : State} {bs : List Byte} (hwf : wellFormedEncoding bs = true)
    (h : BytesSupplied s bs) :
    runSteps bs.length s.acceptDec = .next { s with
      dec := Dec.cleared
      source := { s.source with
        position := s.source.position + bs.length, answers := s.source.answers.drop bs.length }
      decRsps := s.decRsps ++ [.ok (denoted bs)]
      sched := s.sched.drop bs.length
      draws := s.draws + bs.length } := by
  rw [← s64_denoted hwf]
  obtain ⟨cs, b, rfl, hlen, hcont, hlast⟩ := (wellFormedEncoding_iff bs).1 hwf
  obtain ⟨ha, hbyte⟩ := h.last
  rw [List.length_append, List.length_singleton, runSteps_add cs.length 1 (runSteps_acceptDec hlen hcont h.of_append),
    runSteps_succ 0 (step_afterReads_ends hlen hlast ha hbyte), runSteps_zero]

/-- A loopback source that stands where the sink's bytes `bs` begin supplies them (D19). -/
theorem bytesSupplied_of_loopback {s : State} {old bs : List Byte} {m : Nat} {turns : List Agent}
    (hm : bs.length ≤ m) (hs : s.sched = List.replicate m .dec ++ turns) (hcontent : s.sink.content = old ++ bs)
    (hpos : s.source.position = old.length) (ha : s.source.answers = []) (hrest : s.source.rest = .loopback) :
    BytesSupplied s bs := fun j hj => by
  have hlen : (bs.take j).length = j := List.length_take_of_le hj.le
  refine ⟨nextAgent_cons _ (l := List.replicate (m - j - 1) .dec ++ turns) ?turn, ?byte⟩
  case turn =>
    rw [afterReads, hlen, hs]
    exact drop_replicate_append_of_lt (hj.trans_le hm) _ _
  case byte =>
    simp [State.sourceAnswer, afterReads, hlen, hcontent, hpos, ha, hrest, hj]

/-- ENC's turn in IDLE with an ENCODE offered first. -/
theorem step_acceptEnc {s : State} {v : Int} {ws : List CmdWord} (ha : nextAgent s = .enc) (hr : s.enc.st = .idle)
    (ho : s.offers = cmdWord false (u64 v) :: ws) : step s = .next (((advance s).setOffers ws).acceptEnc v) := by
  have htake : takeOffer (fun w => !opBit w) s.offers = some (cmdWord false (u64 v), ws) := by
    rw [ho]
    simp [takeOffer]
  rw [step, ha, agentStep, encStep_accepts (s := advance s) hr htake, valueField_cmdWord]
  rfl

/-- DEC's turn in IDLE with a DECODE offered first. -/
theorem step_acceptDec {s : State} {ignored : Pattern} {ws : List CmdWord} (ha : nextAgent s = .dec)
    (hr : s.dec.st = .idle) (ho : s.offers = cmdWord true ignored :: ws) :
    step s = .next ((advance s).setOffers ws).acceptDec := by
  have htake : takeOffer opBit s.offers = some (cmdWord true ignored, ws) := by
    rw [ho]
    simp [takeOffer]
  rw [step, ha, agentStep, decStep_accepts (s := advance s) hr htake]
  rfl

/-- An ENCODE that an idle ENC finds offered first, with a turn for it and one for each byte. -/
theorem runSteps_encode_offered {s : State} {v : Int} {ws : List CmdWord} {turns : List Agent}
    (hr : s.enc.st = .idle) (ho : s.offers = cmdWord false (u64 v) :: ws) (hans : s.sink.answers = [])
    (hrest : s.sink.rest = .accepts) (hs : s.sched = List.replicate (encLen (u64 v) + 1) .enc ++ turns) :
    runSteps (encLen (u64 v) + 1) s = .next { s with
      enc := Enc.cleared
      offers := ws
      sink := { s.sink with content := s.sink.content ++ encBytes v }
      encRsps := s.encRsps ++ [.ok]
      sched := turns
      draws := s.draws + (encLen (u64 v) + 1) } := by
  have hturns : ((advance s).setOffers ws).sched = List.replicate (encLen (u64 v)) .enc ++ turns :=
    congrArg List.tail hs
  rw [runSteps_succ _ (step_acceptEnc (nextAgent_cons s hs) hr ho),
    runSteps_acceptEnc_encLen (writesAccepted_of_accepts (turns := turns) le_rfl hturns hans hrest)]
  simp [State.setOffers, hs, hans, Nat.add_assoc, Nat.add_comm 1]

/-- A DECODE that an idle DEC finds offered first, through a loopback to a well-formed encoding. -/
theorem runSteps_decode_offered {s : State} {ignored : Pattern} {ws : List CmdWord} {old bs : List Byte}
    {n : Nat} {turns : List Agent} (hn : bs.length = n) (hr : s.dec.st = .idle)
    (ho : s.offers = cmdWord true ignored :: ws) (hwf : wellFormedEncoding bs = true)
    (hcontent : s.sink.content = old ++ bs) (hpos : s.source.position = old.length)
    (hans : s.source.answers = []) (hrest : s.source.rest = .loopback)
    (hs : s.sched = List.replicate (n + 1) .dec ++ turns) :
    runSteps (n + 1) s = .next { s with
      dec := Dec.cleared
      offers := ws
      source := { s.source with position := s.source.position + n }
      decRsps := s.decRsps ++ [.ok (denoted bs)]
      sched := turns
      draws := s.draws + (n + 1) } := by
  subst hn
  have hturns : ((advance s).setOffers ws).sched = List.replicate bs.length .dec ++ turns := congrArg List.tail hs
  rw [runSteps_succ _ (step_acceptDec (nextAgent_cons s hs) hr ho),
    runSteps_acceptDec_wellFormed hwf
      (bytesSupplied_of_loopback (turns := turns) le_rfl hturns hcontent hpos hans hrest)]
  simp [State.setOffers, hs, hans, Nat.add_assoc, Nat.add_comm 1]

end Sys2Proof.Safety

/-! ### The statements -/

namespace Sys2Proof.Proofs

open Sys2Proof.Machine Sys2Proof.Safety

/-- Settles O17: ENC's turn by the three ends of a chunk step, and any other turn by what it leaves. -/
theorem encodeProgressUnderEverySchedule : Obligations.EncodeProgressUnderEverySchedule := by
  unfold Obligations.EncodeProgressUnderEverySchedule
  intro v c p s t h hstep
  refine ⟨?goesOn, ?ends, ?fails, ?others, ?reset⟩
  case goesOn =>
    intro ha hok hmore
    rw [h.step_goesOn ha hok hmore] at hstep
    cases hstep
    exact ⟨⟨hmore, rfl, rfl⟩, rfl⟩
  case ends =>
    intro ha hok hlast
    rw [h.step_ends ha hok hlast] at hstep
    cases hstep
    exact ⟨rfl, rfl, rfl⟩
  case fails =>
    intro left ha hfail
    rw [h.step_fails ha hfail] at hstep
    cases hstep
    exact ⟨rfl, rfl, rfl⟩
  case others =>
    intro ha hne
    obtain ⟨henc, hsink, hrsps⟩ := step_leaves_running_enc h.runs ha hne hstep
    exact ⟨h.of_frame henc hsink, hrsps⟩
  case reset =>
    intro hnow
    obtain ⟨es, rfl⟩ := step_of_resetNow hnow hstep
    exact ⟨rfl, rfl, rfl⟩

/-- Settles O14: the ends of a chunk step, with the chunk and the shift by 7 as numbers. -/
theorem encChunkStep : Obligations.EncChunkStep := by
  unfold Obligations.EncChunkStep
  intro s ha hr u b
  have hchunk : chunkOf s.enc.rem = b := chunkOf_eq_ofNat s.enc.rem
  have hrest : restOf s.enc.rem = BitVec.ofNat 64 (u / 128) := by
    apply BitVec.eq_of_toNat_eq
    rw [restOf_toNat, BitVec.toNat_ofNat]
    omega
  have hzero : restOf s.enc.rem = 0 ↔ u / 128 = 0 := restOf_eq_zero_iff s.enc.rem
  refine ⟨fun hok hend => ?ends, fun hok hmore hcnt => ?goesOn, fun left hfail => step_encChunk_fails ha hr hfail⟩
  case ends =>
    rw [step_encChunk_ends ha hr hok (hend.imp_left hzero.2), hchunk]
    rfl
  case goesOn =>
    rw [step_encChunk_goesOn ha hr hok (not_or.2 ⟨hzero.not.2 hmore, hcnt⟩), hchunk, hrest]

/-- Settles O15: the acceptance, and then as many accepted writes as the encoding has bytes. -/
theorem encodeWritesItsBytesAndResponds : Obligations.EncodeWritesItsBytesAndResponds := by
  unfold Obligations.EncodeWritesItsBytesAndResponds
  intro v s later turns hr ha hs
  refine ⟨s.acceptEnc v, exec_encode_of_idle hr v, ?_⟩
  rw [runSteps_acceptEnc_encLen (writesAccepted_of_script le_rfl le_rfl hs ha), hs, ha]
  simp [Enc.cleared]

/-- Settles O16: the acceptance, `k` accepted writes, and the failed one. -/
theorem encodeEndsAtTheFailedWrite : Obligations.EncodeEndsAtTheFailedWrite := by
  unfold Obligations.EncodeEndsAtTheFailedWrite
  intro v k s left later turns hr hk ha hs
  have hfail : (advance (afterWrites v s k)).sinkAnswer = .fail left :=
    State.sinkAnswer_cons _ ((congrArg (List.drop k) ha).trans (List.drop_left' (List.length_replicate ..)))
  refine ⟨s.acceptEnc v, exec_encode_of_idle hr v, ?_⟩
  rw [runSteps_acceptEnc_fails hk (writesAccepted_of_script (Nat.le_succ k) le_rfl hs ha)
    (nextAgent_afterWrites (Nat.lt_succ_self k) hs) hfail, hs, ha]
  simp [Enc.cleared, List.drop_append]

/-- Settles O19: the length by ranges of the pattern, and bit 7 of the last byte. -/
theorem encodedLengthByRange : Obligations.EncodedLengthByRange := by
  unfold Obligations.EncodedLengthByRange
  intro v hv u
  have hlen : (encBytes v).length = encLen (u64 v) := length_encBytes v
  rw [hlen]
  have hranges := encLen_eq (u64 v)
  refine ⟨fun h => ?_, fun h h' => ?_, fun h h' => ?_, fun h h' => ?_, fun h => ?_, fun h => ?size, fun b hb => ?last⟩
  case size =>
    have hsize : Nat.size (u64 v).toNat ≤ 35 := Nat.size_le.2 (u64_lt_of_valid h)
    rw [encLen_eq_size, min_eq_right (by omega)]
  case last =>
    obtain ⟨k, hk⟩ := exists_encLen_eq_succ (u64 v)
    rw [getLast?_encBytes hk, Option.some_inj] at hb
    exact hb ▸ contBit_last_iff hk
  all_goals
    rw [hranges]
    split_ifs <;> omega

/-- Settles O20: every byte but the last continues, and the last one outside `VALID` alone. -/
theorem encodedBytesContinueCorrectly : Obligations.EncodedBytesContinueCorrectly := by
  unfold Obligations.EncodedBytesContinueCorrectly
  intro v hv
  refine ⟨wellFormedEncoding_encBytes, fun h => ?_⟩
  have hge := u64_ge_of_not_valid hv h
  have hlen : encLen (u64 v) = 4 + 1 := encLen_of_ge hge
  refine ⟨(length_encBytes v).trans hlen, fun b hb => ?_⟩
  rw [encBytes_eq_append hlen, List.mem_append, List.mem_singleton] at hb
  obtain hinit | rfl := hb
  · exact contBit_of_mem_init hlen hinit
  · exact (contBit_last_iff hlen).2 hge

/-- Settles O21: the bytes denote the value, and fewer chunks have no room for it. -/
theorem encodedBytesAreMinimal : Obligations.EncodedBytesAreMinimal := by
  unfold Obligations.EncodedBytesAreMinimal
  intro v h
  refine ⟨minimalEncoding_encBytes h, denoted_encBytes h, fun hlast => ?_, fun hzero => by rw [hzero]; decide⟩
  obtain ⟨k, hk⟩ := exists_encLen_eq_succ (u64 v)
  rw [getLast?_encBytes hk, Option.some_inj] at hlast
  have hvalue := u64_toNat_of_valid h
  have hnat := eq_zero_of_last_eq_zero hk hlast
  omega

/-- Settles O22: five continuing groups of 7 bits, all of them below bit 35. -/
theorem encodeOutsideValid : Obligations.EncodeOutsideValid := by
  unfold Obligations.EncodeOutsideValid
  exact fun v hv h => ⟨encBytes_of_not_valid hv h, fun w hw hnw => encBytes_congr_of_not_valid hv h hw hnw⟩

/-- Settles O23: on `VALID` the bytes denote the value; `2^35` and `2^36` have the same low 35 bits. -/
theorem encodeInjectiveOnValidOnly : Obligations.EncodeInjectiveOnValidOnly := by
  unfold Obligations.EncodeInjectiveOnValidOnly
  refine ⟨fun v w hv hw h => ?_, 2 ^ 35, 2 ^ 36, by decide, by decide, by decide, ?_⟩
  · rw [← denoted_encBytes hv, ← denoted_encBytes hw, h]
  · exact encBytes_congr_of_not_valid (by decide) (by decide) (by decide) (by decide) (by decide)

/-- Settles O24: an ENC within the invariant ends at position 4 at the latest, and else goes on to the next one. -/
theorem encodeBoundedByFiveChunks : Obligations.EncodeBoundedByFiveChunks := by
  unfold Obligations.EncodeBoundedByFiveChunks
  intro s t hOk hr ha hstep
  cases hanswer : (advance s).sinkAnswer with
  | fail left =>
    rw [step_encChunk_fails ha hr hanswer] at hstep
    cases hstep
    exact .inl rfl
  | ok =>
    by_cases hend : restOf s.enc.rem = 0 ∨ s.enc.cnt = 4#3
    · rw [step_encChunk_ends ha hr hanswer hend] at hstep
      cases hstep
      exact .inl rfl
    · rw [step_encChunk_goesOn ha hr hanswer hend] at hstep
      cases hstep
      obtain ⟨hrest, hcnt⟩ := not_or.1 hend
      have hle : s.enc.cnt.toNat ≤ 4 := hOk.cnt_le hr
      obtain ⟨hsucc, hle'⟩ := pos_succ_toNat hle hcnt
      exact .inr ⟨rfl, hsucc, hsucc ▸ hle'⟩

/-- Settles O40: what is written on `VALID` is a well-formed encoding that denotes the value. -/
theorem roundTripOnValid : Obligations.RoundTripOnValid := by
  unfold Obligations.RoundTripOnValid
  intro v a hv ha
  rw [decOutcome_of_wellFormed (wellFormedEncoding_encBytes hv) ha, denoted_encBytes hv]

/-- Settles O43: the whole ENCODE, and then the whole DECODE of what the sink has accepted. -/
theorem machineRoundTripThroughLoopback : Obligations.MachineRoundTripThroughLoopback := by
  unfold Obligations.MachineRoundTripThroughLoopback
  intro v ignored s turns hv henc hdec ho hans hrest hsans hsrest hpos n hs
  have hsum : (n + 1) + (n + 1) = 2 * n + 2 := by omega
  rw [List.append_assoc] at hs
  calc runSteps (2 * n + 2) s
    _ = runSteps ((n + 1) + (n + 1)) s := by rw [hsum]
    _ = _ := runSteps_add _ _ (runSteps_encode_offered henc ho hans hrest hs)
    _ = _ := runSteps_decode_offered (length_encBytes v) hdec rfl (wellFormedEncoding_encBytes hv) rfl hpos hsans
      hsrest rfl
    _ = _ := by
      rw [denoted_encBytes hv, Nat.add_assoc, hsum]
      rfl

/-- Settles O8: a step of an idle ENC. -/
theorem encodeAcceptedByIdleEnc : Obligations.EncodeAcceptedByIdleEnc := by
  unfold Obligations.EncodeAcceptedByIdleEnc
  exact fun v s hr => exec_encode_of_idle hr v

end Sys2Proof.Proofs

/-! PROOFS. DECODE: the chunk forms, the fold, the operation in progress and as a whole, and what its closed form says
of encodings (42_decode). -/

/-! ### The fold and the meanings of the two chunk forms (R166, R181, R182) -/

namespace Sys2Proof.Machine

/-- The fold in arithmetic, at every position: the shift is a product, both taken modulo `2^64`. -/
theorem fold_eq (acc : Pattern) (pos : Pos) (d : Data) :
    fold acc pos d = acc ||| BitVec.ofNat 64 (d.toNat * 2 ^ (7 * pos.toNat)) := by
  rw [fold]
  congr 1
  apply BitVec.eq_of_toNat_eq
  rw [BitVec.toNat_shiftLeft, BitVec.toNat_setWidth_of_le (by decide), Nat.shiftLeft_eq, BitVec.toNat_ofNat,
    Config.dataBits]

/-- The bits of the fold: the accumulator's, and from `7 * pos` on the data's as well. -/
theorem fold_getLsbD {j : Nat} (hj : j < 64) (acc : Pattern) (pos : Pos) (d : Data) :
    (fold acc pos d).getLsbD j =
      (acc.getLsbD j || (decide (7 * pos.toNat ≤ j) && d.getLsbD (j - 7 * pos.toNat))) := by
  rw [fold, BitVec.getLsbD_or, BitVec.getLsbD_shiftLeft, BitVec.getLsbD_setWidth, Config.dataBits]
  have hsub : j - 7 * pos.toNat < 64 := by omega
  by_cases hlt : j < 7 * pos.toNat
  · simp [hlt, Nat.not_le.2 hlt]
  · simp [hj, hlt, Nat.not_lt.1 hlt, hsub]

/-- A group of 7 bits is inserted where the accumulator has none. -/
theorem fold_getLsbD_group {acc : Pattern} {pos : Pos} {i : Nat} (d : Data) (hp : pos.toNat ≤ 4)
    (ha : acc.toNat < 2 ^ (7 * pos.toNat)) (hi : i < 7) :
    (fold acc pos d).getLsbD (7 * pos.toNat + i) = d.getLsbD i := by
  have hclear : acc.getLsbD (7 * pos.toNat + i) = false :=
    Nat.testBit_lt_two_pow (ha.trans_le (Nat.pow_le_pow_right (by decide) (Nat.le_add_right _ i)))
  rw [fold_getLsbD (by omega), hclear]
  simp

/-- Outside the group of 7 bits the fold keeps the accumulator. -/
theorem fold_getLsbD_outside {pos : Pos} {j : Nat} (acc : Pattern) (d : Data)
    (hj : j < 7 * pos.toNat ∨ 7 * pos.toNat + 7 ≤ j) : (fold acc pos d).getLsbD j = acc.getLsbD j := by
  by_cases h64 : j < 64
  · rw [fold_getLsbD h64]
    obtain hlt | hge := hj
    · simp [Nat.not_le.2 hlt]
    · simp [BitVec.getLsbD_of_ge d (j - 7 * pos.toNat) (by omega)]
  · rw [BitVec.getLsbD_of_ge _ _ (Nat.not_lt.1 h64), BitVec.getLsbD_of_ge _ _ (Nat.not_lt.1 h64)]

section ChunkForms

variable {s : State}

theorem exec_chunkCont_of_idle (hr : s.dec.st = .idle) (d : Data) : exec (.chunkCont d) s = .next s := by
  rw [exec, execChunkCont_eq, hr]

theorem exec_chunkLast_of_idle (hr : s.dec.st = .idle) (d : Data) : exec (.chunkLast d) s = .next s := by
  rw [exec, execChunkLast_eq, hr]

/-- A chunk that continues, at position 4. -/
theorem exec_chunkCont_malformed (hr : s.dec.st = .run) (hp : s.dec.pos = 4#3) (d : Data) :
    exec (.chunkCont d) s = .next (s.raiseDec .malformedEncoding) := by
  simp only [exec, execChunkCont_eq, hr, if_pos hp]
  rfl

/-- A chunk that continues, at any other position. -/
theorem exec_chunkCont_goesOn (hr : s.dec.st = .run) (hp : s.dec.pos ≠ 4#3) (d : Data) :
    exec (.chunkCont d) s =
      .next (s.setDec { acc := fold s.dec.acc s.dec.pos d, pos := s.dec.pos + 1, st := .run }) := by
  simp only [exec, execChunkCont_eq, hr, if_neg hp]
  rfl

/-- A chunk that does not continue, at any position. -/
theorem exec_chunkLast_of_run (hr : s.dec.st = .run) (d : Data) :
    exec (.chunkLast d) s = .next (s.respondDec (s64 (fold s.dec.acc s.dec.pos d))) := by
  rw [exec, execChunkLast_eq, hr]
  rfl

theorem decByte_of_malformed {b : Byte} (hcont : contBit b = true) (hp : s.dec.pos = 4#3) :
    decByte b s = s.raiseDec .malformedEncoding := by
  rw [decByte, if_pos hcont, if_pos hp]

/-- A turn of a running DEC whose read fails, at any position (R164). -/
theorem step_decFails {m : Nat} (ha : nextAgent s = .dec) (hr : s.dec.st = .run)
    (hm : (advance s).sourceAnswer = .fail m) :
    step s = .next (((advance s).sourceRead (.fail m)).raiseDec .sourceReadError) := by
  rw [step, ha, agentStep, decStep_of_run_fail (s := advance s) hr hm]

end ChunkForms

end Sys2Proof.Machine

/-! ### A DECODE in progress (R162 to R165, R171) -/

namespace Sys2Proof.Safety

open Sys2Proof.Machine

/-- Up to five chunks denote a value of 35 bits, whose conversion is the value itself (R169, R173). -/
theorem s64_ofNat_denoted {bs : List Byte} (h : bs.length ≤ 5) :
    s64 (BitVec.ofNat 64 (denoted bs)) = denoted bs ∧ valid (denoted bs) := by
  have hnat := ofNat_denoted_toNat h
  have hlt : denoted bs < 2 ^ 35 := (denoted_lt bs).trans_le (Nat.pow_le_pow_right (by decide) (by omega))
  rw [s64_of_lt (by omega), hnat]
  omega

section Progress

variable {c : Nat} {bs : List Byte} {s : State} (h : DecProgress c bs s)

include h

theorem DecProgress.length_le : bs.length ≤ 4 := h.1

theorem DecProgress.all_contBit : bs.all contBit = true := h.2.1

theorem DecProgress.dec_eq :
    s.dec = { acc := BitVec.ofNat 64 (denoted bs), pos := BitVec.ofNat 3 bs.length, st := .run } := h.2.2.1

theorem DecProgress.position_eq : s.source.position = c + bs.length := h.2.2.2

theorem DecProgress.runs : s.dec.st = .run := by rw [h.dec_eq]

/-- The registers and the source hold the progress; the rest of the state is free. -/
theorem DecProgress.of_frame {t : State} (hd : t.dec = s.dec) (hs : t.source = s.source) : DecProgress c bs t :=
  ⟨h.length_le, h.all_contBit, hd ▸ h.dec_eq, hs ▸ h.position_eq⟩

/-- DEC stands at the last position once four bytes are read. -/
theorem DecProgress.pos_eq_last_iff : s.dec.pos = 4#3 ↔ bs.length = 4 := by
  have hlen := h.length_le
  rw [h.dec_eq, ← BitVec.toNat_inj, BitVec.toNat_ofNat, BitVec.toNat_ofNat]
  omega

/-- The chunk folded in gives what the bytes read denote. -/
theorem DecProgress.fold_dataField (b : Byte) :
    fold s.dec.acc s.dec.pos (dataField b) = BitVec.ofNat 64 (denoted (bs ++ [b])) := by
  rw [h.dec_eq]
  exact fold_denoted h.length_le b

variable (ha : nextAgent s = .dec)

include ha

section Byte

variable {b : Byte} (hb : (advance s).sourceAnswer = .byte b)

include hb

/-- A turn that reads a byte after which more follow. -/
theorem DecProgress.step_goesOn (hcont : contBit b = true) (hlen : bs.length < 4) :
    step s = .next { advance s with
      dec := { acc := BitVec.ofNat 64 (denoted (bs ++ [b])), pos := BitVec.ofNat 3 (bs.length + 1), st := .run }
      source := { s.source with position := c + (bs.length + 1), answers := s.source.answers.tail } } := by
  have hpos : s.dec.pos + 1 = BitVec.ofNat 3 (bs.length + 1) := by
    rw [h.dec_eq, BitVec.ofNat_add]
    rfl
  rw [step_decByte ha h.runs hb, decByte_of_cont (s := (advance s).sourceRead (.byte b)) hcont
    (h.pos_eq_last_iff.not.2 hlen.ne), ← h.fold_dataField b, ← hpos, ← Nat.add_assoc, ← h.position_eq]
  rfl

/-- A turn that reads a fifth byte that continues (R165). -/
theorem DecProgress.step_malformed (hcont : contBit b = true) (hlen : bs.length = 4) :
    step s = .next { advance s with
      dec := Dec.cleared
      source := { s.source with position := c + 5, answers := s.source.answers.tail }
      decRsps := s.decRsps ++ [.err .malformedEncoding] } := by
  have hposition : s.source.position + 1 = c + 5 := by rw [h.position_eq, hlen]
  rw [step_decByte ha h.runs hb, decByte_of_malformed (s := (advance s).sourceRead (.byte b)) hcont
    (h.pos_eq_last_iff.2 hlen), ← hposition]
  rfl

/-- A turn that reads the last byte of an encoding. -/
theorem DecProgress.step_ends (hlast : contBit b = false) :
    step s = .next { advance s with
      dec := Dec.cleared
      source := { s.source with position := c + bs.length + 1, answers := s.source.answers.tail }
      decRsps := s.decRsps ++ [.ok (denoted (bs ++ [b]))] } := by
  have hlen : (bs ++ [b]).length ≤ 5 := by
    rw [List.length_append]
    exact Nat.succ_le_succ h.length_le
  rw [step_decByte ha h.runs hb, decByte_of_last hlast, ← (s64_ofNat_denoted hlen).1, ← h.fold_dataField b,
    ← h.position_eq]
  rfl

end Byte

/-- A turn whose read fails. -/
theorem DecProgress.step_fails {m : Nat} (hm : (advance s).sourceAnswer = .fail m) :
    step s = .next { advance s with
      dec := Dec.cleared
      source := { s.source with position := c + bs.length + m, answers := s.source.answers.tail }
      decRsps := s.decRsps ++ [.err .sourceReadError] } := by
  rw [step_decFails ha h.runs hm, ← h.position_eq]
  rfl

end Progress

/-- A turn that is not DEC's, RESET apart, leaves a running DEC and its source as they are; of DEC's responses the host
may have taken some (R57, R68). -/
theorem step_leaves_running_dec {s t : State} (hr : s.dec.st = .run) (ha : nextAgent s ≠ .dec) (hne : ¬ resetNow s)
    (h : step s = .next t) : t.dec = s.dec ∧ t.source = s.source ∧ ∃ l, s.decRsps = l ++ t.decRsps := by
  cases hagent : nextAgent s with
  | dec => exact absurd hagent ha
  | enc =>
    rw [step_enc hagent, encNext_eq] at h
    cases h
    exact ⟨rfl, rfl, [], rfl⟩
  | host =>
    rw [step, hagent] at h
    obtain rfl | ⟨e, es, hi, he⟩ := hostStep_next h
    · exact ⟨rfl, rfl, [], rfl⟩
    · have hreset : e ≠ .reset := by
        rintro rfl
        exact hne ⟨hagent, by rw [← advance_inputs, hi, List.head?_cons]⟩
      obtain ⟨-, hdec, -, -, hrsps, -, hsource⟩ := hostEvent_frame hreset he
      exact ⟨hdec, hsource hr, hrsps⟩

end Sys2Proof.Safety

/-! ### The responses that a step can add (R143, R178) -/

namespace Sys2Proof.Safety

open Sys2Proof.Machine

/-- No act of the host adds a response. -/
theorem hostEvent_rsps_subset {s t : State} {e : HostEvent} (h : hostEvent s e = .next t) :
    t.encRsps ⊆ s.encRsps ∧ t.decRsps ⊆ s.decRsps := by
  by_cases he : e = .reset
  · subst he
    cases h
    exact ⟨List.Subset.refl _, List.Subset.refl _⟩
  · obtain ⟨-, -, -, ⟨le, hle⟩, ⟨ld, hld⟩, -⟩ := hostEvent_frame he h
    exact ⟨hle ▸ List.subset_append_right le _, hld ▸ List.subset_append_right ld _⟩

theorem mem_encRsps_encChunk {s : State} {r : EncResult} (h : r ∈ (encChunk s).encRsps) :
    r ∈ s.encRsps ∨ EncRspOk r := by
  rw [encChunk_eq] at h
  cases hans : s.sinkAnswer with
  | ok =>
    by_cases hend : restOf s.enc.rem = 0 ∨ s.enc.cnt = 4#3
    · simp only [hans, if_pos hend, List.mem_append, List.mem_singleton] at h
      exact h.imp_right .inl
    · simp only [hans, if_neg hend] at h
      exact .inl h
  | fail left =>
    simp only [hans, List.mem_append, List.mem_singleton] at h
    exact h.imp_right .inr

/-- What a step adds to ENC's responses is `Ok` or `SinkWriteError` (R143). -/
theorem mem_encRsps_step {s t : State} {r : EncResult} (h : step s = .next t) (hmem : r ∈ t.encRsps) :
    r ∈ s.encRsps ∨ EncRspOk r := by
  cases step_next h with
  | encChunk ha hr => exact mem_encRsps_encChunk (s := advance s) hmem
  | hostActs _ e es ha hi hw ht => exact .inl ((hostEvent_rsps_subset ht).1 hmem)
  | encAccept | encRests | decFail | decMalformed | decCont | decLast | decAccept | decRests | hostRests | hostWaits =>
    exact .inl hmem

/-- An error that a step adds to DEC's responses is `SourceReadError` or `MalformedEncoding` (R178). -/
theorem mem_decRsps_step {s t : State} {e : ErrorKind} (h : step s = .next t) (hmem : .err e ∈ t.decRsps) :
    .err e ∈ s.decRsps ∨ DecRspOk (.err e) := by
  cases step_next h with
  | encChunk ha hr =>
    refine .inl ?_
    rwa [← encNext_of_run (s := advance s) hr, encNext_eq] at hmem
  | decFail m ha hr hs =>
    refine (List.mem_append.1 hmem).imp_right fun hnew => ?_
    cases List.mem_singleton.1 hnew
    exact .inl rfl
  | decMalformed b ha hr hs hc hp =>
    refine (List.mem_append.1 hmem).imp_right fun hnew => ?_
    cases List.mem_singleton.1 hnew
    exact .inr rfl
  | decLast b ha hr hs hc =>
    refine (List.mem_append.1 hmem).imp_right fun hnew => ?_
    cases List.mem_singleton.1 hnew
  | hostActs _ e es ha hi hw ht => exact .inl ((hostEvent_rsps_subset ht).2 hmem)
  | encAccept | encRests | decCont | decAccept | decRests | hostRests | hostWaits => exact .inl hmem

end Sys2Proof.Safety

/-! ### The whole DECODE (R160, R167, R171) -/

namespace Sys2Proof.Machine

theorem decReads_of_none {a : Nat → SourceAnswer} (h : stopIndex a = none) : decReads a = 5 := by
  simp [decReads, h]

theorem decReads_of_some {a : Nat → SourceAnswer} {k : Nat} (h : stopIndex a = some k) : decReads a = k + 1 := by
  simp [decReads, h]

@[simp] theorem length_firstBytes (a : Nat → SourceAnswer) (n : Nat) : (firstBytes a n).length = n := by
  simp [firstBytes]

theorem firstBytes_succ {a : Nat → SourceAnswer} {n : Nat} {b : Byte} (h : a n = .byte b) :
    firstBytes a (n + 1) = firstBytes a n ++ [b] := by
  simp [firstBytes, List.range_succ, h, byteOf]

/-- The answers before the stop are bytes that continue. -/
theorem contBit_of_mem_firstBytes {a : Nat → SourceAnswer} {n : Nat} (h : ∀ j, j < n → stopsAt (a j) = false)
    {b : Byte} (hb : b ∈ firstBytes a n) : contBit b = true := by
  obtain ⟨j, hj, rfl⟩ := List.mem_map.1 hb
  obtain ⟨c, hc, hge⟩ := (stopsAt_eq_false_iff _).1 (h j (List.mem_range.1 hj))
  rw [hc]
  exact (contBit_iff c).2 hge

/-- A value in the closed form is what the bytes up to the stop denote, and those are at most five (R173). -/
theorem valid_of_decOutcome_ok {a : Nat → SourceAnswer} {v : Int} {n : Nat} (h : decOutcome a = (.ok v, n)) :
    valid v := by
  cases hstop : stopIndex a with
  | none => simp [decOutcome_of_none hstop] at h
  | some k =>
    obtain ⟨-, hk, -⟩ := (stopIndex_eq_some_iff a k).1 hstop
    cases hread : a k with
    | fail m => simp [decOutcome_of_fail hstop hread] at h
    | byte b =>
      obtain ⟨hvalue, hvalid⟩ :=
        Safety.s64_ofNat_denoted (bs := firstBytes a (k + 1)) (by rwa [length_firstBytes])
      rw [decOutcome_of_byte hstop hread, hvalue] at h
      cases h
      exact hvalid

/-- By how much a failed read moves the source; a byte is counted as consumed (R57, R171). -/
def failMove : SourceAnswer → Nat
  | .fail m => m
  | .byte _ => 0

end Sys2Proof.Machine

namespace Sys2Proof.Safety

open Sys2Proof.Machine

/-- The state in which a DECODE accepted in `s` has ended with `r`, after `n` reads that moved the source by `q`. -/
def afterDecode (s : State) (n q : Nat) (r : DecResult) : State :=
  { s with
    dec := Dec.cleared
    source := { s.source with position := s.source.position + q, answers := s.source.answers.drop n }
    decRsps := s.decRsps ++ [r]
    sched := s.sched.drop n
    draws := s.draws + n }

/-- The first `n` turns after the acceptance of a DECODE are DEC's, and the source answers its reads by `a`. -/
def AnswersBy (s : State) (a : Nat → SourceAnswer) (n : Nat) : Prop :=
  ∀ bs : List Byte, bs.length < n →
    nextAgent (afterReads s bs) = .dec ∧ (advance (afterReads s bs)).sourceAnswer = a bs.length

/-- The answers before the stop leave the DECODE in progress with their bytes. -/
theorem decProgress_firstBytes {a : Nat → SourceAnswer} {k : Nat} (hk : k ≤ 4)
    (hbefore : ∀ j, j < k → stopsAt (a j) = false) (s : State) :
    DecProgress s.source.position (firstBytes a k) (afterReads s (firstBytes a k)) :=
  ⟨by rwa [length_firstBytes], List.all_eq_true.2 fun _ => contBit_of_mem_firstBytes hbefore, rfl, rfl⟩

section Whole

variable {s : State} {a : Nat → SourceAnswer} {n k : Nat} (h : AnswersBy s a n) (hk : k < n)
  (hbefore : ∀ j, j < k → stopsAt (a j) = false)

include h hk hbefore

/-- The answers before the stop are supplied as bytes. -/
theorem AnswersBy.bytesSupplied : BytesSupplied s (firstBytes a k) := fun j hj => by
  rw [length_firstBytes] at hj
  have hlen : ((firstBytes a k).take j).length = j := by simp [hj.le]
  obtain ⟨ha, hanswer⟩ := h ((firstBytes a k).take j) (hlen.trans_lt (hj.trans hk))
  obtain ⟨b, hb, -⟩ := (stopsAt_eq_false_iff _).1 (hbefore j hj)
  refine ⟨ha, hanswer.trans ?_⟩
  rw [hlen, hb]
  simp [firstBytes, hb, byteOf]

/-- The reads before the stop, and the step of the read that stops the DECODE. -/
theorem AnswersBy.runSteps_acceptDec {t : State} (hk4 : k ≤ 4)
    (hstep : step (afterReads s (firstBytes a k)) = .next t) :
    runSteps (k + 1) s.acceptDec = .next t := by
  have hreads := Safety.runSteps_acceptDec (by rwa [length_firstBytes])
    (fun _ => contBit_of_mem_firstBytes hbefore) (h.bytesSupplied hk hbefore)
  rw [length_firstBytes] at hreads
  rw [runSteps_add k 1 hreads, runSteps_succ 0 hstep, runSteps_zero]

end Whole

/-- DEC-ACCEPT and the reads of a DECODE give what the closed form says (R171). -/
theorem AnswersBy.runSteps_decode {s : State} {a : Nat → SourceAnswer} (h : AnswersBy s a (decReads a)) :
    runSteps (decReads a) s.acceptDec = .next
      (afterDecode s (decReads a) ((decOutcome a).2 + failMove (a (decReads a - 1))) (decOutcome a).1) := by
  cases hstop : stopIndex a with
  | none =>
    have hall := (stopIndex_eq_none_iff a).1 hstop
    have hbefore : ∀ j, j < 4 → stopsAt (a j) = false := fun j hj => hall j (by omega)
    obtain ⟨b, hb, hge⟩ := (stopsAt_eq_false_iff _).1 (hall 4 (by decide))
    rw [decReads_of_none hstop] at h ⊢
    obtain ⟨ha, hanswer⟩ := h (firstBytes a 4) (by simp)
    rw [length_firstBytes, hb] at hanswer
    have hprogress := decProgress_firstBytes le_rfl hbefore s
    rw [h.runSteps_acceptDec (by decide) hbefore le_rfl
      (hprogress.step_malformed ha hanswer ((contBit_iff b).2 hge) (length_firstBytes a 4)),
      decOutcome_of_none hstop, hb]
    simp [afterReads, afterDecode, advance, failMove, Nat.add_assoc]
  | some k =>
    obtain ⟨hstops, hk, hbefore⟩ := (stopIndex_eq_some_iff a k).1 hstop
    rw [decReads_of_some hstop] at h ⊢
    have hlt := Nat.lt_succ_self k
    have hk4 := Nat.le_of_lt_succ hk
    have hprogress := decProgress_firstBytes hk4 hbefore s
    obtain ⟨ha, hanswer⟩ := h (firstBytes a k) (by simp)
    rw [length_firstBytes] at hanswer
    rw [Nat.add_sub_cancel]
    cases hread : a k with
    | fail m =>
      rw [h.runSteps_acceptDec hlt hbefore hk4 (hprogress.step_fails ha (hanswer.trans hread)),
        decOutcome_of_fail hstop hread]
      simp [afterReads, afterDecode, advance, failMove, Nat.add_assoc]
    | byte b =>
      have hlast : contBit b = false := by simpa [hread, stopsAt] using hstops
      have hlen : (firstBytes a (k + 1)).length ≤ 5 := by rwa [length_firstBytes]
      rw [h.runSteps_acceptDec hlt hbefore hk4
        (hprogress.step_ends ha (hanswer.trans hread) hlast), decOutcome_of_byte hstop hread,
        (s64_ofNat_denoted hlen).1, firstBytes_succ hread]
      simp [afterReads, afterDecode, advance, failMove, Nat.add_assoc]

/-- A source whose script covers the reads, or after whose script the stream ends, answers by the script. -/
theorem answersBy_of_script {s : State} {n : Nat} {turns : List Agent}
    (hcovered : n ≤ s.source.answers.length ∨ s.source.rest = .ends)
    (hs : s.sched = List.replicate n .dec ++ turns) :
    AnswersBy s (fun k => s.source.answers.getD k (.fail 0)) n := fun bs hlen => by
  refine ⟨nextAgent_cons _ ((congrArg (List.drop bs.length) hs).trans (drop_replicate_append_of_lt hlen _ _)), ?_⟩
  by_cases hlt : bs.length < s.source.answers.length
  · refine Eq.trans ?_ (List.getD_eq_getElem s.source.answers _ hlt).symm
    exact State.sourceAnswer_cons _ (List.drop_eq_getElem_cons hlt)
  · have hle := Nat.not_lt.1 hlt
    have hends : s.source.rest = .ends := hcovered.resolve_left (by omega)
    simp [State.sourceAnswer, afterReads, hends, hle, List.drop_eq_nil_of_le]

end Sys2Proof.Safety

/-! ### Encodings and their values (R92, R177) -/

namespace Sys2Proof.Machine

theorem valid_denoted {bs : List Byte} (h : wellFormedEncoding bs = true) : valid (denoted bs) := by
  have := denoted_lt_of_wellFormed h
  omega

/-- In a well-formed encoding every byte but the last continues (R84). -/
theorem contBit_getElem {bs : List Byte} (h : wellFormedEncoding bs = true) {p : Nat} (hp : p < bs.length) :
    contBit bs[p] = decide (p + 1 < bs.length) := by
  obtain ⟨cs, b, rfl, -, hcont, hlast⟩ := (wellFormedEncoding_iff bs).1 h
  rw [List.length_append, List.length_singleton] at hp
  by_cases hlt : p < cs.length
  · simp [List.getElem_append_left hlt, hcont, hlt]
  · obtain rfl : p = cs.length := by omega
    simp [hlast]

/-- The bits of a byte are its data and its flag. -/
theorem byte_eq_of_fields {b c : Byte} (hdata : ∀ i, i < 7 → b.getLsbD i = c.getLsbD i)
    (hcont : contBit b = contBit c) : b = c := by
  apply BitVec.eq_of_getLsbD_eq
  intro i hi
  by_cases h7 : i < 7
  · exact hdata i h7
  · obtain rfl : i = 7 := by omega
    exact hcont

/-- Well-formed encodings of one length and one value are the same bytes. -/
theorem wellFormedEncoding_ext {as bs : List Byte} (ha : wellFormedEncoding as = true)
    (hb : wellFormedEncoding bs = true) (hlen : as.length = bs.length) (hden : denoted as = denoted bs) : as = bs := by
  refine List.ext_getElem hlen fun p hp hp' => byte_eq_of_fields (fun i hi => ?_) ?_
  · rw [← List.getD_eq_getElem as 0 hp, ← List.getD_eq_getElem bs 0 hp', ← denoted_testBit hp hi,
      ← denoted_testBit hp' hi, hden]
  · rw [contBit_getElem ha hp, contBit_getElem hb hp', hlen]

/-- What a well-formed encoding denotes, encoded again: a minimal encoding of the same value, not longer. -/
theorem encBytes_denoted {e : List Byte} (h : wellFormedEncoding e = true) :
    minimalEncoding (encBytes (denoted e)) ∧ denoted (encBytes (denoted e)) = denoted e ∧
      (encBytes (denoted e)).length ≤ e.length := by
  have hmin := minimalEncoding_encBytes (valid_denoted h)
  have hden : denoted (encBytes (denoted e)) = denoted e := by
    exact_mod_cast denoted_encBytes (valid_denoted h)
  exact ⟨hmin, hden, hmin.2 e h hden.symm⟩

/-- A minimal encoding is the one that ENCODE writes of its value (R250). -/
theorem encBytes_denoted_eq_iff {e : List Byte} (h : wellFormedEncoding e = true) :
    encBytes (denoted e) = e ↔ minimalEncoding e := by
  obtain ⟨hmin, hden, hle⟩ := encBytes_denoted h
  refine ⟨fun heq => heq ▸ hmin, fun ⟨_, hshortest⟩ => ?_⟩
  exact wellFormedEncoding_ext hmin.1 h (hle.antisymm (hshortest _ hmin.1 hden)) hden

/-- An encoding that is not minimal is longer than what ENCODE writes of its value. -/
theorem length_encBytes_denoted_lt {e : List Byte} (h : wellFormedEncoding e = true) (hne : ¬ minimalEncoding e) :
    (encBytes (denoted e)).length < e.length := by
  obtain ⟨hmin, hden, hle⟩ := encBytes_denoted h
  refine hle.lt_of_ne fun hlen => hne ((encBytes_denoted_eq_iff h).1 ?_)
  exact wellFormedEncoding_ext hmin.1 h hlen hden

/-- A DECODE whose source supplies five bytes that continue (R165, R171). -/
theorem decOutcome_of_five_cont {bs : List Byte} {a : Nat → SourceAnswer} (hlen : bs.length = 5)
    (hcont : ∀ b ∈ bs, contBit b = true) (ha : ∀ p, p < 5 → a p = .byte (bs.getD p 0)) :
    decOutcome a = (.err .malformedEncoding, 5) := by
  refine decOutcome_of_none ((stopIndex_eq_none_iff a).2 fun p hp => ?_)
  have hp' : p < bs.length := hp.trans_eq hlen.symm
  rw [ha p hp, List.getD_eq_getElem bs 0 hp', stopsAt, hcont _ (List.getElem_mem hp')]
  rfl

end Sys2Proof.Machine

/-! ### The statements -/

namespace Sys2Proof.Proofs

open Sys2Proof.Machine Sys2Proof.Safety

/-- Settles O34: DEC's turn by the four ends of its read, and any other turn by what it leaves. -/
theorem decodeProgressUnderEverySchedule : Obligations.DecodeProgressUnderEverySchedule := by
  unfold Obligations.DecodeProgressUnderEverySchedule
  intro c bs s t h hstep
  refine ⟨?goesOn, ?malformed, ?ends, ?fails, ?others, ?reset⟩
  case goesOn =>
    intro b ha hb hge hlen
    have hcont := (contBit_iff b).2 hge
    rw [h.step_goesOn ha hb hcont hlen] at hstep
    cases hstep
    refine ⟨⟨?_, ?_, ?_, ?_⟩, rfl⟩
    · simpa using hlen
    · simp [h.all_contBit, hcont]
    · simp
    · simp
  case malformed =>
    intro b ha hb hge hlen
    rw [h.step_malformed ha hb ((contBit_iff b).2 hge) hlen] at hstep
    cases hstep
    exact ⟨rfl, rfl, rfl⟩
  case ends =>
    intro b ha hb hlt
    rw [h.step_ends ha hb ((contBit_eq_false_iff b).2 hlt)] at hstep
    cases hstep
    exact ⟨rfl, rfl, rfl⟩
  case fails =>
    intro m ha hm
    rw [h.step_fails ha hm] at hstep
    cases hstep
    exact ⟨rfl, rfl, rfl⟩
  case others =>
    intro ha hne
    obtain ⟨hdec, hsource, hrsps⟩ := step_leaves_running_dec h.runs ha hne hstep
    exact ⟨h.of_frame hdec hsource, hrsps⟩
  case reset =>
    intro hnow
    obtain ⟨es, rfl⟩ := step_of_resetNow hnow hstep
    exact ⟨rfl, rfl, rfl⟩

/-- Settles O25: the two cases of CHUNK_CONT, with the fold and the position as numbers. -/
theorem chunkContMeaning : Obligations.ChunkContMeaning := by
  unfold Obligations.ChunkContMeaning
  intro d s hr
  constructor
  · intro hp
    have hne : s.dec.pos ≠ 4#3 := fun h => by simp [h] at hp
    have hnext : s.dec.pos + 1 = BitVec.ofNat 3 (s.dec.pos.toNat + 1) := by
      rw [BitVec.ofNat_add, BitVec.ofNat_toNat, BitVec.setWidth_eq]
      rfl
    rw [exec_chunkCont_goesOn hr hne, fold_eq, hnext]
    rfl
  · intro hp
    exact exec_chunkCont_malformed hr (BitVec.eq_of_toNat_eq hp) d

/-- Settles O26: the end of a DECODE, with the fold as a number. -/
theorem chunkLastMeaning : Obligations.ChunkLastMeaning := by
  unfold Obligations.ChunkLastMeaning
  intro d s hr
  rw [exec_chunkLast_of_run hr, fold_eq]
  rfl

/-- Settles O31, by the flag of the byte and the position. -/
theorem malformedOnlyOnContinuingFifthByte : Obligations.MalformedOnlyOnContinuingFifthByte := by
  unfold Obligations.MalformedOnlyOnContinuingFifthByte
  intro b s hr hp
  refine ⟨decByte b s, exec_decodeChunk hr b, ?_⟩
  have hpos : s.dec.pos = 4#3 ↔ s.dec.pos.toNat = 4 := by simp [← BitVec.toNat_inj]
  cases hcont : contBit b with
  | false =>
    have hlt := (contBit_eq_false_iff b).1 hcont
    rw [decByte_of_last hcont]
    simp [hlt, Nat.not_le.2 hlt]
  | true =>
    have hge := (contBit_iff b).1 hcont
    by_cases h4 : s.dec.pos = 4#3
    · rw [decByte_of_malformed hcont h4]
      simp [hpos.1 h4, hge, Nat.not_lt.2 hge]
    · have hlt : s.dec.pos.toNat < 4 := hp.lt_of_ne (mt hpos.2 h4)
      rw [decByte_of_cont hcont h4]
      simp [hlt, hlt.ne, hge, Nat.not_lt.2 hge]

/-- Settles O32: the sum, its bound, and the bits of the fold inside and outside the group. -/
theorem foldInsertsTheGroup : Obligations.FoldInsertsTheGroup := by
  unfold Obligations.FoldInsertsTheGroup
  intro acc pos d hp ha
  exact ⟨fold_toNat d hp ha, fold_toNat_lt d hp ha, fun i => fold_getLsbD_group d hp ha,
    fun j => fold_getLsbD_outside acc d⟩

/-- Settles O33: the acceptance, and then the reads up to the answer that stops the DECODE. -/
theorem decodeRespondsWithDec : Obligations.DecodeRespondsWithDec := by
  unfold Obligations.DecodeRespondsWithDec
  rintro s _ turns hr rfl a n hcovered extra hs
  refine ⟨s.acceptDec, exec_decode_of_idle hr, (answersBy_of_script hcovered hs).runSteps_decode.trans ?_⟩
  have hsched : s.sched.drop n = turns := by simp [hs]
  have hextra : failMove (a (n - 1)) = extra := rfl
  rw [afterDecode, hsched, hextra, ← Nat.add_assoc]
  rfl

/-- Settles O36: at most five groups of 7 bits in the closed form, and the invariant in the machine. -/
theorem decodedValueIsInValid : Obligations.DecodedValueIsInValid := by
  unfold Obligations.DecodedValueIsInValid
  have hne {v : Int} (hv : valid v) : valid v ∧ v ≠ -1 := ⟨hv, by omega⟩
  constructor
  · exact fun a v n h => hne (valid_of_decOutcome_ok h)
  · intro s t v h hstep hmem
    obtain ⟨-, -, -, hrsps⟩ := h.stepTo (step_next hstep)
    exact hne (hrsps _ hmem)

/-- Settles O37: the last byte of the encoding is the one that stops the DECODE. -/
theorem everyWellFormedEncodingDecodes : Obligations.EveryWellFormedEncodingDecodes := by
  unfold Obligations.EveryWellFormedEncodingDecodes
  exact fun bs a => decOutcome_of_wellFormed

/-- Settles O41: outside `VALID` each of the five bytes continues. -/
theorem encodedOutsideValidIsRejected : Obligations.EncodedOutsideValidIsRejected := by
  unfold Obligations.EncodedOutsideValidIsRejected
  intro v a hv hnv ha
  obtain ⟨-, houtside⟩ := encodedBytesContinueCorrectly v hv
  obtain ⟨hlen, hcont⟩ := houtside hnv
  exact decOutcome_of_five_cont hlen hcont ha

/-- Settles O42: an encoding is fixed by its length and its value, and ENCODE writes the shortest. -/
theorem reencodingGivesBackMinimalOnly : Obligations.ReencodingGivesBackMinimalOnly := by
  unfold Obligations.ReencodingGivesBackMinimalOnly
  exact fun e h => ⟨encBytes_denoted_eq_iff h, length_encBytes_denoted_lt h⟩

/-- Settles O54: each unit adds its own errors alone. -/
theorem reinterpretationErrorIsNeverRaised : Obligations.ReinterpretationErrorIsNeverRaised := by
  unfold Obligations.ReinterpretationErrorIsNeverRaised
  intro s t hstep
  exact ⟨fun h => (mem_encRsps_step hstep h).resolve_right (by simp [EncRspOk]),
    fun h => (mem_decRsps_step hstep h).resolve_right (by simp [DecRspOk])⟩

/-- Settles O10: a step of an idle DEC. -/
theorem decodeAcceptedByIdleDec : Obligations.DecodeAcceptedByIdleDec := by
  unfold Obligations.DecodeAcceptedByIdleDec
  exact fun s hr => exec_decode_of_idle hr

/-- Settles O27, for both chunk forms. -/
theorem idleDecInterpretsNoChunk : Obligations.IdleDecInterpretsNoChunk := by
  unfold Obligations.IdleDecInterpretsNoChunk
  exact fun d s hr => ⟨exec_chunkCont_of_idle hr d, exec_chunkLast_of_idle hr d⟩

/-- Settles O28: a chunk form writes DEC and its responses alone, and on an idle DEC nothing. -/
theorem chunkFormFrames : Obligations.ChunkFormFrames := by
  unfold Obligations.ChunkFormFrames
  constructor
  · intro d s t h
    cases hr : s.dec.st with
    | idle =>
      rw [exec_chunkCont_of_idle hr] at h
      cases h
      simp
    | run =>
      by_cases hp : s.dec.pos = 4#3
      · rw [exec_chunkCont_malformed hr hp] at h
        cases h
        simp
      · rw [exec_chunkCont_goesOn hr hp] at h
        cases h
        simp
  · intro d s t h
    cases hr : s.dec.st with
    | idle =>
      rw [exec_chunkLast_of_idle hr] at h
      cases h
      simp
    | run =>
      rw [exec_chunkLast_of_run hr] at h
      cases h
      simp

/-- Settles O30: a turn of a running DEC whose read fails. -/
theorem failedReadRaisesSourceReadError : Obligations.FailedReadRaisesSourceReadError := by
  unfold Obligations.FailedReadRaisesSourceReadError
  exact fun s m ha hr hm => step_decFails ha hr hm

end Sys2Proof.Proofs

/-! PROOFS. The steps that stop, and the turns without a step (60_exceptions). -/

/-! ### The duties of the host, and what a step does where one is broken (R51, R73, R200) -/

namespace Sys2Proof.Machine

/-- The events that break a duty of the host while the units stand at `enc` and `dec`, each with the name of its
refusal: only a running unit's stream is the unit's own (R51, R73). -/
inductive BreaksDuty (enc : Enc) (dec : Dec) : HostEvent → Refusal → Prop
  | attachSink (k : Sink) (hr : enc.st = .run) : BreaksDuty enc dec (.attachSink k) .attachmentChanged
  | attachSource (c : Source) (hr : dec.st = .run) : BreaksDuty enc dec (.attachSource c) .attachmentChanged
  | foreignWrite (b : Byte) (hr : enc.st = .run) : BreaksDuty enc dec (.foreignWrite b) .ownershipViolated
  | foreignRead (hr : dec.st = .run) : BreaksDuty enc dec .foreignRead .ownershipViolated

theorem hostEvent_foreignWrite (s : State) (b : Byte) :
    hostEvent s (.foreignWrite b) =
      if s.enc.st = .run then .refused .ownershipViolated else .next (s.sinkWrite b s.sinkAnswer) := by
  simp only [hostEvent, State.encRuns_iff]

theorem hostEvent_foreignRead (s : State) :
    hostEvent s .foreignRead =
      if s.dec.st = .run then .refused .ownershipViolated else .next (s.sourceRead s.sourceAnswer) := by
  simp only [hostEvent, State.decRuns_iff]

theorem hostEvent_of_breaksDuty {s : State} {e : HostEvent} {r : Refusal} (h : BreaksDuty s.enc s.dec e r) :
    hostEvent s e = .refused r := by
  cases h with
  | attachSink k hr => rw [hostEvent_attachSink, if_pos hr]
  | attachSource c hr => rw [hostEvent_attachSource, if_pos hr]
  | foreignWrite b hr => rw [hostEvent_foreignWrite, if_pos hr]
  | foreignRead hr => rw [hostEvent_foreignRead, if_pos hr]

/-- An event that breaks no duty is answered. -/
theorem hostEvent_answers_or_breaksDuty (s : State) (e : HostEvent) :
    (∃ t, hostEvent s e = .next t) ∨ ∃ r, BreaksDuty s.enc s.dec e r := by
  cases e with
  | attachSink k =>
    by_cases hr : s.enc.st = .run
    · exact .inr ⟨_, .attachSink k hr⟩
    · exact .inl ⟨_, (hostEvent_attachSink s k).trans (if_neg hr)⟩
  | attachSource c =>
    by_cases hr : s.dec.st = .run
    · exact .inr ⟨_, .attachSource c hr⟩
    · exact .inl ⟨_, (hostEvent_attachSource s c).trans (if_neg hr)⟩
  | foreignWrite b =>
    by_cases hr : s.enc.st = .run
    · exact .inr ⟨_, .foreignWrite b hr⟩
    · exact .inl ⟨_, (hostEvent_foreignWrite s b).trans (if_neg hr)⟩
  | foreignRead =>
    by_cases hr : s.dec.st = .run
    · exact .inr ⟨_, .foreignRead hr⟩
    · exact .inl ⟨_, (hostEvent_foreignRead s).trans (if_neg hr)⟩
  | issue | takeEnc | takeDec | await | awaitEnc | awaitDec | reset => exact .inl ⟨_, rfl⟩

/-- Every step is answered, but for the host's turn with an event that breaks a duty, which is refused by name. -/
theorem step_answers_or_breaksDuty (s : State) :
    (∃ t, step s = .next t) ∨
      ∃ e es r, nextAgent s = .host ∧ s.inputs = e :: es ∧ BreaksDuty s.enc s.dec e r ∧ step s = .refused r := by
  cases ha : nextAgent s with
  | enc => exact .inl ⟨_, step_enc ha⟩
  | dec => exact .inl ⟨_, step_dec ha⟩
  | host =>
    cases hi : s.inputs with
    | nil => exact .inl ⟨advance s, by simp [step, ha, agentStep, hostStep, hi]⟩
    | cons e es =>
      cases hw : hostWaits s e with
      | true => exact .inl ⟨_, step_of_hostWaits ha hi hw⟩
      | false =>
        have hstep := step_of_hostActs ha hi hw
        obtain ⟨t, ht⟩ | ⟨r, hr⟩ := hostEvent_answers_or_breaksDuty { advance s with inputs := es } e
        · exact .inl ⟨t, hstep.trans ht⟩
        · exact .inr ⟨e, es, r, rfl, rfl, hr, hstep.trans (hostEvent_of_breaksDuty hr)⟩

theorem step_ne_fault (s : State) (f : Fault) : step s ≠ .fault f := by
  obtain ⟨t, ht⟩ | ⟨_, _, r, _, _, _, hr⟩ := step_answers_or_breaksDuty s
  · simp [ht]
  · simp [hr]

theorem breaksDuty_of_step_refused {s : State} {r : Refusal} (h : step s = .refused r) :
    nextAgent s = .host ∧ ∃ e es, s.inputs = e :: es ∧ BreaksDuty s.enc s.dec e r := by
  obtain ⟨t, ht⟩ | ⟨e, es, r', ha, hi, hduty, hr⟩ := step_answers_or_breaksDuty s
  · rw [ht] at h
    cases h
  · rw [hr] at h
    cases h
    exact ⟨ha, e, es, hi, hduty⟩

end Sys2Proof.Machine

/-! ### The statements -/

namespace Sys2Proof.Proofs

open Sys2Proof.Machine

/-- Settles O51: each refused step is one of the four events that break a duty. -/
theorem onlyABrokenDutyStops : Obligations.OnlyABrokenDutyStops := by
  unfold Obligations.OnlyABrokenDutyStops
  refine ⟨step_ne_fault, fun s r h => ?_⟩
  obtain ⟨ha, e, es, hi, hduty⟩ := breaksDuty_of_step_refused h
  refine ⟨ha, ?_⟩
  cases hduty with
  | attachSink k hr => exact .inl ⟨rfl, hr, k, es, hi⟩
  | attachSource c hr => exact .inr (.inl ⟨rfl, hr, c, es, hi⟩)
  | foreignWrite b hr => exact .inr (.inr (.inl ⟨rfl, hr, b, es, hi⟩))
  | foreignRead hr => exact .inr (.inr (.inr ⟨rfl, hr, es, hi⟩))

/-- Settles O56: an idle unit that finds no word of its own among the offers takes none. -/
theorem idleUnitWithoutOfferDoesNothing : Obligations.IdleUnitWithoutOfferDoesNothing := by
  unfold Obligations.IdleUnitWithoutOfferDoesNothing
  constructor
  · intro s ha hr ho
    have hnone : takeOffer (fun w => !opBit w) s.offers = none :=
      takeOffer_none_iff.2 fun w hw => by simp [(opBit_iff w).2 (ho w hw)]
    rw [step, ha]
    exact encStep_of_idle_none (s := advance s) hr hnone
  · intro s ha hr ho
    have hnone : takeOffer opBit s.offers = none :=
      takeOffer_none_iff.2 fun w hw => (opBit_eq_false_iff w).2 (ho w hw)
    rw [step, ha]
    exact decStep_of_idle_none (s := advance s) hr hnone

end Sys2Proof.Proofs

/-! PROOFS. RESET (70_reset_and_hazards). -/

/-! ### RESET as a turn of the host, and the commands after it (R241, R242) -/

namespace Sys2Proof.Machine

/-- The host's turn with RESET as its next event: the host waits for nothing, whatever is in progress (R242). -/
theorem step_of_reset {s : State} {es : List HostEvent} (ha : nextAgent s = .host) (hi : s.inputs = .reset :: es) :
    step s = .next ({ advance s with inputs := es } : State).resetCore :=
  step_of_hostActs ha hi rfl

/-- ENC is idle after RESET, so it accepts every ENCODE. -/
theorem exec_encode_resetCore (s : State) (v : Int) :
    exec (.encode v) s.resetCore = .next (s.resetCore.acceptEnc v) :=
  exec_encode_of_idle rfl v

/-- DEC is idle after RESET, so it accepts a DECODE. -/
theorem exec_decode_resetCore (s : State) : exec .decode s.resetCore = .next s.resetCore.acceptDec :=
  exec_decode_of_idle rfl

end Sys2Proof.Machine

/-! ### The statements -/

namespace Sys2Proof.Proofs

open Sys2Proof.Machine

/-- Settles O47: the host's turn is RESET of the state whose event list it has left, and both units are idle there. -/
theorem resetEventClearsCore : Obligations.ResetEventClearsCore := by
  unfold Obligations.ResetEventClearsCore
  intro s later ha hi
  have hstep := step_of_reset ha hi
  refine ⟨hstep, fun t ht => ?_⟩
  obtain rfl : State.resetCore _ = t := Host.Outcome.next.inj (hstep.symm.trans ht)
  exact ⟨State.maxSize_eq _, exec_encode_resetCore _, exec_decode_resetCore _⟩

end Sys2Proof.Proofs
